-- ==== Sys2Proof/Word.lean ====
section
/-!
DEFINITION. The word types of the detector (spec/00_scope.md R7): every value is an unsigned integer of 4, 8 or 16 bits,
bit 0 least significant. The arithmetic on them (R8) stands in Machine/Operands.lean.
-/

namespace Sys2Proof

/-- `u4` of R7, 0 to 15: opcode, channel index, calibration offset. -/
abbrev U4 := BitVec 4

/-- `u8` of R7, 0 to 255: samples, counter, immediate, threshold. -/
abbrev U8 := BitVec 8

/-- `u16` of R7, 0 to 65535: command words, references, response values. -/
abbrev U16 := BitVec 16

end Sys2Proof
end

