-- ==== Sys2Proof/Syntax.lean ====
section
/-!
DEFINITION. The six commands of spec/30_encoding.md R84, one constructor per row of spec/opcode_table.json. The operand
`c` is the channel index CH, `n` and `s` are the immediate IMM (R81).
-/

namespace Sys2Proof

/-- A command of the detector (R84). -/
inductive Instr where
  /-- `MEAS c`: one raw sample (R113). -/
  | meas (c : U4)
  /-- `AVG c, n`: the mean of `n` samples (R142). -/
  | avg (c : U4) (n : U8)
  /-- `MED3 c`: the median of three samples (R146). -/
  | med3 (c : U4)
  /-- `EVAL c, s`: evaluate the filtered sample `s` (R162). -/
  | eval (c : U4) (s : U8)
  /-- `SCAN c`: the configured filter, then evaluate (R164). -/
  | scan (c : U4)
  /-- `RDREF c`: read the reference (R166). -/
  | rdref (c : U4)
  deriving DecidableEq, Repr

end Sys2Proof
end

