-- ==== Sys2Proof/WellFormed.lean ====
section
/-!
DEFINITION. When a command is well formed on a block of NCH channels (spec/30_encoding.md R82 checks 3 and 4), and the three
reasons a word can be rejected for (spec/60_exceptions.md R191).
-/

namespace Sys2Proof

/-- Why a command is rejected (R191). -/
inductive Reject where
  /-- The sample count of AVG is 0. -/
  | nZero
  /-- The channel index selects no channel. -/
  | badChannel
  /-- The word is no command: reserved opcode, or a must-be-zero field that is not zero. -/
  | illegalCmd
  deriving DecidableEq, Repr

/-- The channel a command names (R51: exactly one). -/
def Instr.chan : Instr → U4
  | .meas c => c
  | .avg c _ => c
  | .med3 c => c
  | .eval c _ => c
  | .scan c => c
  | .rdref c => c

/-- The sample count of the command is legal: only AVG carries one, and 0 is illegal (R141, R82 check 4). -/
def Instr.countLegal : Instr → Bool
  | .avg _ n => decide (n ≠ 0)
  | .meas _ => true
  | .med3 _ => true
  | .eval _ _ => true
  | .scan _ => true
  | .rdref _ => true

/-- The command has legal operands on a block of `nch` channels (R82 step 5: it is executed). -/
def Instr.wf (nch : Nat) (i : Instr) : Bool :=
  decide (i.chan.toNat < nch) && i.countLegal

end Sys2Proof
end

