-- ==== Sys2Proof/Decode.lean ====
section
/-!
DEFINITION. Decoding and encoding of the 16-bit command word (spec/30_encoding.md R80 to R86, spec/60_exceptions.md R193).

R82's five checks come in two halves, in R82's order. `selectCommand` makes checks 1 and 2, which need the word alone and
fail as ILLEGAL_CMD; `Instr.operandReject` makes checks 3 and 4, which need the operands and NCH and fail as BAD_CHANNEL or
N_ZERO. `decode` is the whole of R82. Assumption log 12.
-/

namespace Sys2Proof

/-- Field OP of a command word, bits 15:12 (R80). -/
def opField (w : U16) : U4 := w.extractLsb' 12 4

/-- Field CH of a command word, bits 11:8 (R80). -/
def chField (w : U16) : U4 := w.extractLsb' 8 4

/-- Field IMM of a command word, bits 7:0 (R80). -/
def immField (w : U16) : U8 := w.extractLsb' 0 8

/-- Checks 1 and 2 of R82: the row of R84 the word selects, or `none` (ILLEGAL_CMD). -/
def selectCommand (w : U16) : Option Instr :=
  let c := chField w
  let imm := immField w
  match (opField w).toNat with
  | 1 => if imm = 0 then some (.meas c) else none
  | 2 => some (.avg c imm)
  | 3 => if imm = 0 then some (.med3 c) else none
  | 4 => some (.eval c imm)
  | 5 => if imm = 0 then some (.scan c) else none
  | 6 => if imm = 0 then some (.rdref c) else none
  | _ => none

/-- Checks 3 and 4 of R82, in that order, on a block of `nch` channels: the reason the operands are rejected for, if any. -/
def Instr.operandReject (nch : Nat) (i : Instr) : Option Reject :=
  if nch ≤ i.chan.toNat then some .badChannel
  else if !i.countLegal then some .nZero
  else none

/-- R82: the total decoder of a 16-bit word on a block of `nch` channels. -/
def decode (nch : Nat) (w : U16) : Except Reject Instr :=
  match selectCommand w with
  | none => .error .illegalCmd
  | some i =>
    match i.operandReject nch with
    | some r => .error r
    | none => .ok i

/-- What the decoder reads from an instruction of `nbits` bits whose bits are `w`, numbered as spec/opcode_table.json
numbers them. Every command is one 16-bit word (R86), and bits above `nbits` are 0. -/
def decodeTableWord (nbits w : Nat) : Option Instr :=
  if nbits ≤ 16 then selectCommand (BitVec.ofNat 16 (w % 2 ^ nbits)) else none

/-- A command word from its three fields (R80). -/
def commandWord (op ch : U4) (imm : U8) : U16 := (op ++ ch) ++ imm

/-- The word of a command (R80, R84). -/
def encode : Instr → U16
  | .meas c => commandWord 1 c 0
  | .avg c n => commandWord 2 c n
  | .med3 c => commandWord 3 c 0
  | .eval c s => commandWord 4 c s
  | .scan c => commandWord 5 c 0
  | .rdref c => commandWord 6 c 0

/-- The column `match` of R84. -/
def Instr.tableMatch : Instr → U16
  | .meas _ => 0x1000
  | .avg _ _ => 0x2000
  | .med3 _ => 0x3000
  | .eval _ _ => 0x4000
  | .scan _ => 0x5000
  | .rdref _ => 0x6000

/-- The column `mask` of R84. -/
def Instr.tableMask : Instr → U16
  | .meas _ => 0xF0FF
  | .avg _ _ => 0xF000
  | .med3 _ => 0xF0FF
  | .eval _ _ => 0xF000
  | .scan _ => 0xF0FF
  | .rdref _ => 0xF0FF

/-- MEAS decodes from its word, written out from R84: 0001 0011 00000000 is `MEAS 3`. -/
theorem selectCommand_meas_word : selectCommand 0b0001001100000000 = some (.meas 3) := by decide

/-- AVG decodes from its word: 0010 0010 00000101 is `AVG 2, 5`. -/
theorem selectCommand_avg_word : selectCommand 0b0010001000000101 = some (.avg 2 5) := by decide

/-- MED3 decodes from its word: 0011 0001 00000000 is `MED3 1` (R146's worked example, 0x3100). -/
theorem selectCommand_med3_word : selectCommand 0b0011000100000000 = some (.med3 1) := by decide

/-- EVAL decodes from its word: 0100 0000 00011110 is `EVAL 0, 30` (R162's worked example, 0x401E). -/
theorem selectCommand_eval_word : selectCommand 0b0100000000011110 = some (.eval 0 30) := by decide

/-- SCAN decodes from its word: 0101 0001 00000000 is `SCAN 1` (R164's worked example, 0x5100). -/
theorem selectCommand_scan_word : selectCommand 0b0101000100000000 = some (.scan 1) := by decide

/-- RDREF decodes from its word: 0110 1010 00000000 is `RDREF 10`. -/
theorem selectCommand_rdref_word : selectCommand 0b0110101000000000 = some (.rdref 10) := by decide

end Sys2Proof
end

