-- ==== Sys2Proof/Config.lean ====
section
/-!
DEFINITION. What the integrator fixes (spec/00_scope.md R5, R6; spec/10_state.md R25) and the free values: the straps of the
machine at reset, the answers of the level oracle (spec/20_memory.md R60), and what a channel that does not exist would
read as. Every free value is an opaque constant with no body: no proof can see which value it is.
-/

namespace Sys2Proof

/-- The filter a channel is configured for, `CFG[c].FSEL` (R25): 0 = average, 1 = median-of-3. -/
inductive FilterSel where
  | average
  | median3
  deriving DecidableEq, Repr, Inhabited

/-- The strap `CFG[c]` of one channel (R25). -/
structure ChanCfg where
  /-- FSEL, 1 bit: read by SCAN. -/
  fsel : FilterSel
  /-- NSAMP, 8 bits, legal 1 to 255: SCAN's sample count when FSEL = 0. -/
  nsamp : U8
  /-- OFFSET, 4 bits, legal 0 to 8: the CalibrationOffset. -/
  offset : U4
  /-- THRESH, 8 bits: the Threshold. -/
  thresh : U8
  deriving DecidableEq, Repr, Inhabited

/-- One channel's strap is well formed (R6). -/
def ChanCfg.wf (g : ChanCfg) : Bool :=
  decide (g.offset.toNat ≤ 8) && decide (g.nsamp ≠ 0)

/-- A configuration is legal: 1 to 16 channels (R5), each strap well formed (R6). -/
def strapsWf (gs : List ChanCfg) : Bool :=
  decide (1 ≤ gs.length) && decide (gs.length ≤ 16) && gs.all ChanCfg.wf

/-- `NCH - 1`, the integrator's choice (R5, D7): a free value in 0 to 15. Assumption log 5. -/
opaque Config.nchPred : Fin 16

/-- `CFG[c].FSEL`, the integrator's choice (R5): free. Assumption log 5. -/
opaque Config.fsel : Nat → FilterSel

/-- `CFG[c].NSAMP - 1`, the integrator's choice (R5, R6): free, so that NSAMP is 1 to 255. Assumption log 5. -/
opaque Config.nsampPred : Nat → Fin 255

/-- `CFG[c].OFFSET`, the integrator's choice (R5, R6): free in 0 to 8. Assumption log 5. -/
opaque Config.offset : Nat → Fin 9

/-- `CFG[c].THRESH`, the integrator's choice (R5): free. Assumption log 5. -/
opaque Config.thresh : Nat → U8

/-- The strap of channel `c` of the machine that leaves reset. -/
def Config.cfgOf (c : Nat) : ChanCfg where
  fsel := Config.fsel c
  nsamp := BitVec.ofNat 8 ((Config.nsampPred c).val + 1)
  offset := BitVec.ofNat 4 (Config.offset c).val
  thresh := Config.thresh c

/-- The straps of the machine that leaves reset: NCH of them, every one well formed whatever the free values are. -/
def Config.straps : List ChanCfg :=
  (List.range (Config.nchPred.val + 1)).map Config.cfgOf

/-- The level oracle (R60): the bit the environment gives to read number `i` (from 1) on channel `c` in the execution of
measureOnce with number `exec`. One free draw per read, under no law. Assumption log 1. -/
opaque Config.level : (exec : Nat) → (c : U4) → (i : Nat) → Bool

/-- What the register of a channel that does not exist would read as: free, and no command reads it (R51: the index is
checked first). Assumption log 6. -/
opaque Config.absentRef : U4 → U16

/-- What the strap of a channel that does not exist would read as: free, and no command reads it. Assumption log 6. -/
opaque Config.absentCfg : U4 → ChanCfg

/-- What the two pad bits (PADOUT, PADOE) of a channel that does not exist would read as: free, and no command reads them.
Assumption log 6. -/
opaque Config.absentPad : U4 → Bool × Bool

/-- `a >> k` with k above 8, which R8 does not define: free, and reached by no well-formed strap (R6). Assumption log 5. -/
opaque Config.shiftRightOutside : U16 → Nat → U16

/-- `a << k` with k above 8, which R8 does not define: free, and reached by no well-formed strap (R6). Assumption log 5. -/
opaque Config.shiftLeftOutside : U16 → Nat → U16

/-- `a div 0`, which R8 does not define ("n = 0 never reaches this operation"): free, and reached by no command on a
well-formed strap (R141). Assumption log 5. -/
opaque Config.divideByZero : U16 → U16

end Sys2Proof
end

