-- ==== Sys2Proof/Machine/State.lean ====
section
/-!
DEFINITION. The state of the detector (spec/10_state.md R20 to R31), as plain data, and the state after reset (R30).

The block's own state is `chans`, `cnt`, `crit`, `busy`. `trace` is the event trace of spec/20_memory.md R62. What crosses
the interfaces is recorded beside it: `responses` (given so far, R88, R241; assumption logs 3, 10) and `host` (the host's remaining
actions, R27, R241; log 2). `env` carries the environment's answers (R60; log 1).
-/

namespace Sys2Proof.Machine

/-- One channel: its reference register (R20), its two pad bits (R24) and its strap (R25). -/
structure Channel where
  /-- `CFG[c]`, constant from reset on. -/
  cfg : ChanCfg
  /-- `REF[c]`. -/
  ref : U16
  /-- `PADOUT[c]`, the output latch. -/
  padOut : Bool
  /-- `PADOE[c]`, the output enable: true = driven output, false = floating input. -/
  padOe : Bool
  deriving DecidableEq, Repr

/-- The events of the trace (R62). -/
inductive Event where
  | driveLow (c : U4)
  | cfgIn (c : U4)
  | cfgOut (c : U4)
  | read (c : U4) (b : Bool)
  | critEnter
  | critLeave
  | hostSetOut (c : U4) (b : Bool)
  deriving DecidableEq, Repr

/-- A response: the 2-bit status ST and the 16-bit value VAL (spec/30_encoding.md R88). -/
structure Response where
  st : BitVec 2
  val : U16
  deriving DecidableEq, Repr

/-- What the host can do to the block (spec/70_reset_and_hazards.md R229, R230). -/
inductive HostAction where
  /-- Issue a command word and wait for its response. -/
  | command (w : U16)
  /-- `HostSetOut(c, b)`: set the output latch of channel `c`. -/
  | setOut (c : U4) (b : Bool)
  /-- Assert reset while no command is in progress. -/
  | reset
  /-- Issue a command word and assert reset before its response (spec/10_state.md R30, D29). -/
  | resetDuring (w : U16)
  deriving DecidableEq, Repr

/-- The environment's answers to `Gpio.readLevel` (R60), the model's own fields: assumption log 1. -/
structure Env where
  /-- Answers the environment is already bound to give: the first list for the coming execution of measureOnce, the next for
  the one after it, and so on. An answer not listed is the free draw `Config.level`. -/
  script : List (List Bool)
  /-- How many executions of measureOnce have been completed: the key of the free draws. -/
  exec : Nat
  /-- How many reads the current execution has made. -/
  reads : Nat
  deriving DecidableEq, Repr

/-- The machine. -/
structure State where
  /-- The channels 0 to NCH-1 (R51); NCH is the length. -/
  chans : List Channel
  /-- `CNT`, the cycle counter (R22). -/
  cnt : U8
  /-- `CRIT`, the critical region (R23). -/
  crit : Bool
  /-- The busy condition (R29 (c), R30). -/
  busy : Bool
  /-- The event trace, oldest first (R62). -/
  trace : List Event
  /-- The responses given so far, oldest first (R241). -/
  responses : List Response
  /-- What the host will do, next first (R27, R241). -/
  host : List HostAction
  /-- The environment's answers (R60). -/
  env : Env
  deriving DecidableEq, Repr

/-- No step of this machine ends in a fault: "There is no fault, trap, hang or stuck state in the block"
(spec/00_scope.md R12). Assumption log 11. -/
inductive Fault where
  deriving DecidableEq, Repr

/-- Why a step gives no meaning. Only host actions that the spec gives no move are refused; no command is. -/
inductive Refusal where
  /-- An instruction that has no meaning in this model yet. No arm of exec raises it. Safe. -/
  | notModelled (mnemonic : String)
  /-- The host issues a command while one is in progress (R230, U19): raised by a host action in a state with busy = 1, which
  no run reaches. Safe. -/
  | commandWhileBusy
  /-- The host writes a pad while the block is busy (R230, U19): as commandWhileBusy. Safe. -/
  | padWriteWhileBusy
  /-- The host writes the pad of a channel that does not exist (R51): raised by `HostSetOut(c, b)` with c >= NCH. Safe. -/
  | noSuchPad
  deriving DecidableEq, Repr

/-- `NCH`, the number of channels (R5). -/
def State.nch (s : State) : Nat := s.chans.length

/-- A channel right after reset (R30): its strap as the integrator gave it, REF = 0xFFFF, the pad driven low. -/
def Channel.atReset (g : ChanCfg) : Channel where
  cfg := g
  ref := 0xFFFF
  padOut := false
  padOe := true

/-- The machine right after reset (R30) with the integrator's straps `gs`. CNT is 0: assumption log 4. -/
def State.resetWith (gs : List ChanCfg) : State where
  chans := gs.map Channel.atReset
  cnt := 0
  crit := false
  busy := false
  trace := []
  responses := []
  host := []
  env := { script := [], exec := 0, reads := 0 }

/-- The machine right after reset (R30), for whatever well-formed straps the integrator gave. -/
def State.reset : State := State.resetWith Config.straps

end Sys2Proof.Machine
end

