-- ==== Sys2Proof/Machine/Operands.lean ====
section
/-!
DEFINITION. The arithmetic of spec/00_scope.md R8, the operand forms of spec/30_encoding.md R81, and the codes and values a
response carries (R88, R89).
-/

namespace Sys2Proof.Machine

/-- `a +8 b` (R8): (a + b) mod 256. -/
def add8 (a b : U8) : U8 := a + b

/-- `a -8 b` (R8): (a - b) mod 256. -/
def sub8 (a b : U8) : U8 := a - b

/-- `a +16 b` (R8): (a + b) mod 65536. -/
def add16 (a b : U16) : U16 := a + b

/-- `zext_16(a)` (R8). -/
def zext16 (a : U8) : U16 := a.setWidth 16

/-- `trunc_8(a)` (R8): a mod 256. -/
def trunc8 (a : U16) : U8 := a.setWidth 8

/-- `a >> k` (R8), defined for k in 0 to 8: logical shift. Outside it, a free value. -/
def shr16 (a : U16) (k : Nat) : U16 :=
  if k ≤ 8 then a >>> k else Config.shiftRightOutside a k

/-- `a << k` (R8), defined for k in 0 to 8: (a * 2^k) mod 65536. Outside it, a free value. -/
def shl16 (a : U16) (k : Nat) : U16 :=
  if k ≤ 8 then a <<< k else Config.shiftLeftOutside a k

/-- `a div n` (R8), defined for n in 1 to 255: the integer-truncated quotient. For n = 0, a free value. -/
def div16 (a : U16) (n : U8) : U16 :=
  if n = 0 then Config.divideByZero a else a / zext16 n

/-- A channel operand as an index (R81): unsigned, no scaling. -/
def chanIndex (c : U4) : Nat := c.toNat

/-- The sample count of AVG (R81) or of a strap (R5), unsigned. -/
def countOf (n : U8) : Nat := n.toNat

/-- The status code of a completed command (R88). -/
def statusOk : BitVec 2 := 0

/-- The status code of a rejection (R88, R191). -/
def Reject.code : Reject → BitVec 2
  | .nZero => 1
  | .badChannel => 2
  | .illegalCmd => 3

/-- VAL of a command that answers a sample: MEAS, AVG, MED3 (R89). -/
def sampleValue (v : U8) : U16 := zext16 v

/-- VAL of EVAL (R89, R162): 15 zero bits, then touched. -/
def evalValue (touched : Bool) : U16 := zext16 ((0 : BitVec 7) ++ BitVec.ofBool touched)

/-- VAL of SCAN (R89, R164): 7 zero bits, touched, the filtered sample. -/
def scanValue (touched : Bool) (f : U8) : U16 := ((0 : BitVec 7) ++ BitVec.ofBool touched) ++ f

end Sys2Proof.Machine
end

