-- ==== Sys2Proof/Machine/Ops.lean ====
section
/-!
DEFINITION. The named operations on the state: registers and straps of a channel, the trace, the GPIO primitives
(spec/20_memory.md R56 to R60), the critical region (R66), accepting, answering and rejecting a command
(spec/00_scope.md R11, R12; spec/30_encoding.md R88; spec/60_exceptions.md R191, R192), the host's pad write and reset
(spec/70_reset_and_hazards.md R229, spec/10_state.md R30). The block has no memory (R50), so no memory operation.
-/

namespace Sys2Proof.Machine

/-! ### Registers, pads and straps -/

/-- Change the record of channel `c`. An index `c >= NCH` selects nothing (R51). -/
def State.updChan (c : U4) (f : Channel → Channel) (s : State) : State :=
  { s with chans := s.chans.modify (chanIndex c) f }

/-- Read of `REF[c]` (R9, R20). -/
def State.ref (s : State) (c : U4) : U16 :=
  match s.chans[chanIndex c]? with
  | some ch => ch.ref
  | none => Config.absentRef c

/-- `REF[c] <- v` (R9). -/
def State.setRef (c : U4) (v : U16) (s : State) : State :=
  s.updChan c fun ch => { ch with ref := v }

/-- Read of `CFG[c]` (R9, R25). -/
def State.cfg (s : State) (c : U4) : ChanCfg :=
  match s.chans[chanIndex c]? with
  | some ch => ch.cfg
  | none => Config.absentCfg c

/-- `PADOUT[c]` (R24). -/
def State.padOut (s : State) (c : U4) : Bool :=
  match s.chans[chanIndex c]? with
  | some ch => ch.padOut
  | none => (Config.absentPad c).1

/-- `PADOE[c]` (R24). -/
def State.padOe (s : State) (c : U4) : Bool :=
  match s.chans[chanIndex c]? with
  | some ch => ch.padOe
  | none => (Config.absentPad c).2

/-- `PADOUT[c] <- b`. -/
def State.setPadOut (c : U4) (b : Bool) (s : State) : State :=
  s.updChan c fun ch => { ch with padOut := b }

/-- `PADOE[c] <- b`. -/
def State.setPadOe (c : U4) (b : Bool) (s : State) : State :=
  s.updChan c fun ch => { ch with padOe := b }

/-- `CNT <- v`. -/
def State.setCnt (v : U8) (s : State) : State := { s with cnt := v }

/-- Append one event to the trace (R62). -/
def State.log (e : Event) (s : State) : State := { s with trace := s.trace ++ [e] }

/-! ### The environment -/

/-- The bit the environment gives to read `i` (from 1) on channel `c` in the `m`-th execution of measureOnce from here on
(`m` from 1): the script's answer where it has one, a free draw where it has none (R60). Assumption log 1. -/
def Env.levelOf (e : Env) (c : U4) (m i : Nat) : Bool :=
  match (e.script[m - 1]?).bind (·[i - 1]?) with
  | some b => b
  | none => Config.level (e.exec + (m - 1)) c i

/-- A new execution of measureOnce has made no read yet. -/
def State.startExecution (s : State) : State := { s with env := { s.env with reads := 0 } }

/-- One read has been answered. -/
def State.countRead (s : State) : State := { s with env := { s.env with reads := s.env.reads + 1 } }

/-- The execution of measureOnce is over: its answers are behind, the next execution's come next. -/
def State.finishExecution (s : State) : State :=
  { s with env := { script := s.env.script.tail, exec := s.env.exec + 1, reads := 0 } }

/-! ### The GPIO primitives and the critical region -/

/-- `Gpio.driveLow(c)` (R56). -/
def driveLow (c : U4) (s : State) : State := (s.setPadOut c false).log (.driveLow c)

/-- `Gpio.configureInput(c)` (R57). -/
def configureInput (c : U4) (s : State) : State := (s.setPadOe c false).log (.cfgIn c)

/-- `Gpio.configureOutput(c)` (R58). -/
def configureOutput (c : U4) (s : State) : State := (s.setPadOe c true).log (.cfgOut c)

/-- The bit the next read on channel `c` returns. -/
def State.nextLevel (s : State) (c : U4) : Bool := s.env.levelOf c 1 (s.env.reads + 1)

/-- `Gpio.readLevel(c)` (R59): the level as the environment gives it, and the state with the event appended. -/
def readLevel (c : U4) (s : State) : Bool × State :=
  (s.nextLevel c, s.countRead.log (.read c (s.nextLevel c)))

/-- `CritEnter()` (R66). -/
def critEnter (s : State) : State := ({ s with crit := true } : State).log .critEnter

/-- `CritLeave()` (R66). -/
def critLeave (s : State) : State := ({ s with crit := false } : State).log .critLeave

/-! ### A command's beginning and end -/

/-- The block accepts a command and is busy until its response (R11). -/
def accept (s : State) : State := { s with busy := true }

/-- Give a response and be idle again (R11, R88). -/
def answer (r : Response) (s : State) : State :=
  { s with busy := false, responses := s.responses ++ [r] }

/-- `respond(val)` (R9, R88): the command completes with status OK. -/
def respond (v : U16) (s : State) : State := answer { st := statusOk, val := v } s

/-- `reject <Reason>` (R9, R191, R192), the block's only kind of exception: the response carries the code and VAL = 0, and
nothing else changes. There is no handler, no saved state and no return (R192). -/
def reject (r : Reject) (s : State) : State := answer { st := Reject.code r, val := 0 } s

/-- Accept command `i`, make checks 3 and 4 of R82, and go on with `k` when its operands are legal. -/
def whenLegal (i : Instr) (k : State → State) (s : State) : State :=
  match i.operandReject s.nch with
  | some r => reject r (accept s)
  | none => k (accept s)

/-! ### The host's own actions -/

/-- `HostSetOut(c, b)` (R229). -/
def hostSetOut (c : U4) (b : Bool) (s : State) : State := (s.setPadOut c b).log (.hostSetOut c b)

/-- Reset (R30): every piece of the block's state at its reset value, the trace empty, the straps unchanged. Reset gives no
response and takes none back; the host's remaining actions and the environment's answers to come are not the block's.
Assumption logs 4, 9, 10. -/
def assertReset (s : State) : State :=
  { State.resetWith (s.chans.map Channel.cfg) with
    responses := s.responses
    host := s.host
    env := { s.env with reads := 0 } }

end Sys2Proof.Machine
end

