-- ==== Sys2Proof/Machine/Sampler.lean ====
section
/-!
DEFINITION. The RC-charge-timer (spec/40_sampler.md): the operation `measureOnce` (R110 to R117) and the command MEAS (R113).
-/

namespace Sys2Proof.Machine

/-- One iteration of the counting loop of R111 step 4: read; leave when the level is high; else increment, and leave when the
counter has wrapped to 0. The Bool says that the loop is left. The level is tested before the increment (C1) and the wrap
after it (D12). -/
def countTick (c : U4) (s : State) : Bool × State :=
  let r := readLevel c s
  if r.1 then (true, r.2)
  else
    let s' := r.2.setCnt (add8 r.2.cnt 1)
    (decide (s'.cnt = 0), s')

/-- The counting loop of R111 step 4, for at most `fuel` iterations. -/
def countLoop (c : U4) : Nat → State → State
  | 0, s => s
  | fuel + 1, s =>
    match countTick c s with
    | (true, s') => s'
    | (false, s') => countLoop c fuel s'

/-- The bound on the counting loop (R116): from CNT = 1, the 255th increment wraps. -/
def maxReads : Nat := 255

/-- `measureOnce(c)` (R111), step by step: the RawSample and the state after. -/
def measureOnce (c : U4) (s : State) : U8 × State :=
  let s1 := driveLow c s.startExecution
  let s2 := critEnter s1
  let s3 := configureInput c s2
  let s4 := countLoop c maxReads (s3.setCnt 1)
  let s5 := critLeave s4
  let s6 := configureOutput c s5
  (sub8 s6.cnt 1, s6.finishExecution)

/-- The pseudocode of R113, once the operands are legal. -/
def runMeas (c : U4) (s : State) : State :=
  let r := measureOnce c s
  respond (sampleValue r.1) r.2

/-- `MEAS c` (R113). -/
def execMeas (c : U4) (s : State) : Host.Outcome State Fault Refusal :=
  .next (whenLegal (.meas c) (runMeas c) s)

end Sys2Proof.Machine
end

