-- ==== Sys2Proof/Machine/Filters.lean ====
section
/-!
DEFINITION. The two filters (spec/41_filters.md): the operations `average` (R141) and `median3` (R145), each after one
throwaway sample (R140), and the commands AVG (R142) and MED3 (R146).
-/

namespace Sys2Proof.Machine

/-- The loop of R141: `n` samples added to the 16-bit accumulator. -/
def sumSamples (c : U4) : Nat → U16 → State → U16 × State
  | 0, acc, s => (acc, s)
  | n + 1, acc, s =>
    let r := measureOnce c s
    sumSamples c n (add16 acc (zext16 r.1)) r.2

/-- `average(c, n)` (R141). The first measurement is the throwaway sample. -/
def average (c : U4) (n : U8) (s : State) : U8 × State :=
  let r := sumSamples c (countOf n) 0 (measureOnce c s).2
  (trunc8 (div16 r.1 n), r.2)

/-- The decision tree of R145. All comparisons are strict and unsigned. -/
def medianTree (v0 v1 v2 : U8) : U8 :=
  if v0 < v1 then
    if v1 < v2 then v1
    else if v0 < v2 then v2
    else v0
  else
    if v2 < v1 then v1
    else if v2 < v0 then v2
    else v0

/-- `median3(c)` (R145). The first measurement is the throwaway sample. -/
def median3 (c : U4) (s : State) : U8 × State :=
  let d := measureOnce c s
  let v0 := measureOnce c d.2
  let v1 := measureOnce c v0.2
  let v2 := measureOnce c v1.2
  (medianTree v0.1 v1.1 v2.1, v2.2)

/-- The pseudocode of R142, once the operands are legal. -/
def runAvg (c : U4) (n : U8) (s : State) : State :=
  let r := average c n s
  respond (sampleValue r.1) r.2

/-- `AVG c, n` (R142). -/
def execAvg (c : U4) (n : U8) (s : State) : Host.Outcome State Fault Refusal :=
  .next (whenLegal (.avg c n) (runAvg c n) s)

/-- The pseudocode of R146, once the operands are legal. -/
def runMed3 (c : U4) (s : State) : State :=
  let r := median3 c s
  respond (sampleValue r.1) r.2

/-- `MED3 c` (R146). -/
def execMed3 (c : U4) (s : State) : Host.Outcome State Fault Refusal :=
  .next (whenLegal (.med3 c) (runMed3 c) s)

end Sys2Proof.Machine
end

