-- ==== Sys2Proof/Machine/Flags.lean ====
section
/-!
DEFINITION. The block has no flag, condition code or predicate (spec/10_state.md R26). What takes their place is the one
decision it computes, returns and forgets: steps 1 to 3 of `evaluate` (spec/42_calibrator.md R161), and the choice of step 4.
-/

namespace Sys2Proof.Machine

/-- Step 1 of R161: the baseline, `trunc_8(REF >> OFFSET)`. -/
def baseline (ref : U16) (offset : U4) : U8 := trunc8 (shr16 ref offset.toNat)

/-- Step 2 of R161: the difference, which wraps when the sample is below the baseline (D27). -/
def difference (sample base : U8) : U8 := sub8 sample base

/-- Step 3 of R161: the touch decision, an unsigned comparison. -/
def touched (sample base thresh : U8) : Bool := decide (thresh < difference sample base)

/-- Step 4 of R161: the reference snaps (rather than cools down). -/
def snaps (sample base : U8) : Bool := decide (sample ≤ base)

/-- Step 4 of R161: the new reference. -/
def nextRef (ref : U16) (offset : U4) (sample base : U8) : U16 :=
  if snaps sample base then shl16 (zext16 sample) offset.toNat else add16 ref 1

end Sys2Proof.Machine
end

