-- ==== Sys2Proof/Machine/Calibrator.lean ====
section
/-!
DEFINITION. The adaptive baseline calibrator (spec/42_calibrator.md): the operation `evaluate` (R160, R161) and the commands
EVAL (R162), SCAN (R164) and RDREF (R166).
-/

namespace Sys2Proof.Machine

/-- `evaluate(c, x)` (R161): the touch decision and the state with the reference snapped or cooled down. The baseline is
computed once, from the reference as it was. -/
def evaluate (c : U4) (x : U8) (s : State) : Bool × State :=
  let base := baseline (s.ref c) (s.cfg c).offset
  (touched x base (s.cfg c).thresh,
   s.setRef c (nextRef (s.ref c) (s.cfg c).offset x base))

/-- The filter channel `c` is configured for (R164): `average` of NSAMP samples or `median3`. -/
def configuredFilter (c : U4) (s : State) : U8 × State :=
  match (s.cfg c).fsel with
  | .average => average c (s.cfg c).nsamp s
  | .median3 => median3 c s

/-- The pseudocode of R162, once the operands are legal. -/
def runEval (c : U4) (x : U8) (s : State) : State :=
  let t := evaluate c x s
  respond (evalValue t.1) t.2

/-- `EVAL c, x` (R162). -/
def execEval (c : U4) (x : U8) (s : State) : Host.Outcome State Fault Refusal :=
  .next (whenLegal (.eval c x) (runEval c x) s)

/-- The pseudocode of R164, once the operands are legal. -/
def runScan (c : U4) (s : State) : State :=
  let f := configuredFilter c s
  let t := evaluate c f.1 f.2
  respond (scanValue t.1 f.1) t.2

/-- `SCAN c` (R164): the filter completes before the reference is read. -/
def execScan (c : U4) (s : State) : Host.Outcome State Fault Refusal :=
  .next (whenLegal (.scan c) (runScan c) s)

/-- The pseudocode of R166, once the operands are legal. -/
def runRdref (c : U4) (s : State) : State :=
  respond (s.ref c) s

/-- `RDREF c` (R166). -/
def execRdref (c : U4) (s : State) : Host.Outcome State Fault Refusal :=
  .next (whenLegal (.rdref c) (runRdref c) s)

end Sys2Proof.Machine
end

