-- ==== Sys2Proof/Machine/Dispatch.lean ====
section
/-!
DEFINITION. One arm per command: its meaning.
-/

namespace Sys2Proof.Machine

def exec (i : Instr) (s : State) : Host.Outcome State Fault Refusal :=
  match i with
  | .meas c => Sys2Proof.Machine.execMeas c s
  | .avg c n => Sys2Proof.Machine.execAvg c n s
  | .med3 c => Sys2Proof.Machine.execMed3 c s
  | .eval c x => Sys2Proof.Machine.execEval c x s
  | .scan c => Sys2Proof.Machine.execScan c s
  | .rdref c => Sys2Proof.Machine.execRdref c s

end Sys2Proof.Machine
end

