-- ==== Sys2Proof/Machine/Interface.lean ====
section
/-!
DEFINITION. The command interface and the host's actions (spec/10_state.md R31, spec/70_reset_and_hazards.md R228 to R230):
what each host action does to the block, and the host loop's standing sequences of actions.
-/

namespace Sys2Proof.Machine

/-- A command word arrives at an idle block (R82): it is rejected as no command, or executed. -/
def runWord (w : U16) (s : State) : Host.Outcome State Fault Refusal :=
  match selectCommand w with
  | none => .next (reject .illegalCmd (accept s))
  | some i => exec i s

/-- What one action of the host does (R229, R230, R30). While the block is busy only reset has a move (U19); a pad write
reaches only a pad that exists (R51). Assumption logs 7, 8, 9. -/
def act (a : HostAction) (s : State) : Host.Outcome State Fault Refusal :=
  match a with
  | .command w => if s.busy then .refused .commandWhileBusy else runWord w s
  | .setOut c b =>
    if s.busy then .refused .padWriteWhileBusy
    else if s.nch ≤ chanIndex c then .refused .noSuchPad
    else .next (hostSetOut c b s)
  | .reset => .next (assertReset s)
  | .resetDuring _ => if s.busy then .refused .commandWhileBusy else .next (assertReset s)

/-- One step of the whole: the host's next action, or nothing at all while the host has none (R220, R203). Assumption
log 2. -/
def hostStep (s : State) : Host.Outcome State Fault Refusal :=
  match s.host with
  | [] => .next s
  | a :: rest => act a { s with host := rest }

/-- `HOST CLEAR` (R229): `HostSetOut(c, 0)` for every channel, in ascending order. -/
def hostClear (nch : Nat) : List HostAction :=
  (List.range nch).map fun c => .setOut (BitVec.ofNat 4 c) false

/-- Steps (1) to (3) of one host-loop cycle (R228): clear every pad, then scan every channel. -/
def hostCycle (nch : Nat) : List HostAction :=
  hostClear nch ++ (List.range nch).map fun c => .command (encode (.scan (BitVec.ofNat 4 c)))

/-- The command word that a table word of `nbits` bits stands for: the bits above it are 0. -/
def tableCommand (nbits w : Nat) : U16 := BitVec.ofNat 16 (w % 2 ^ nbits)

end Sys2Proof.Machine
end

