-- ==== Sys2Proof/Machine/Step.lean ====
section
/-!
DEFINITION. One step of the machine, and placing a command where the next step takes it.
-/

namespace Sys2Proof.Machine

/-- One step: the host's next action. -/
def step (s : State) : Host.Outcome State Fault Refusal := hostStep s

/-- The block fetches nothing (spec/20_memory.md R69): the next command is the one the host issues next, to an idle block.
Assumption log 2. -/
def State.withFetchWord (s : State) (nbits w : Nat) : State :=
  { s with busy := false, host := .command (tableCommand nbits w) :: s.host }

end Sys2Proof.Machine
end

