-- ==== Sys2Proof/Machine/Assembler.lean ====
section
/-!
DEFINITION. The textual form of a command (spec/30_encoding.md R87): mnemonic in upper case, a space, the operands separated
by a comma, each a decimal or `0x` hexadecimal literal, the channel first. Text is a list of characters. How blanks around
an operand and literals out of range are read is assumption log 18.
-/

namespace Sys2Proof.Machine

/-- One digit, 0 to 9. -/
def digitChar (d : Nat) : Char := Char.ofNat (48 + d)

/-- The decimal literal of a number below 1000, without leading zeros. -/
def decimal (n : Nat) : List Char :=
  if n < 10 then [digitChar n]
  else if n < 100 then [digitChar (n / 10), digitChar (n % 10)]
  else [digitChar (n / 100), digitChar (n / 10 % 10), digitChar (n % 10)]

/-- The mnemonic of a command (R84, R87). -/
def mnemonic : Instr → List Char
  | .meas _ => ['M', 'E', 'A', 'S']
  | .avg _ _ => ['A', 'V', 'G']
  | .med3 _ => ['M', 'E', 'D', '3']
  | .eval _ _ => ['E', 'V', 'A', 'L']
  | .scan _ => ['S', 'C', 'A', 'N']
  | .rdref _ => ['R', 'D', 'R', 'E', 'F']

/-- The operands of a command, the channel first (R87). -/
def operandValues : Instr → List Nat
  | .meas c => [c.toNat]
  | .avg c n => [c.toNat, n.toNat]
  | .med3 c => [c.toNat]
  | .eval c x => [c.toNat, x.toNat]
  | .scan c => [c.toNat]
  | .rdref c => [c.toNat]

/-- Literals separated by a comma and a space, as in `AVG 2, 5`. -/
def printOperands : List Nat → List Char
  | [] => []
  | [v] => decimal v
  | v :: vs => decimal v ++ [',', ' '] ++ printOperands vs

/-- A command as text, with decimal literals. -/
def printCommand (i : Instr) : List Char :=
  mnemonic i ++ ' ' :: printOperands (operandValues i)

/-- The value of a digit of a literal in the given base (10 or 16). -/
def digitValue (base : Nat) (ch : Char) : Option Nat :=
  let k := ch.toNat
  let v :=
    if 48 ≤ k ∧ k ≤ 57 then k - 48
    else if 65 ≤ k ∧ k ≤ 70 then k - 55
    else if 97 ≤ k ∧ k ≤ 102 then k - 87
    else base
  if v < base then some v else none

/-- Digits after the value read so far. -/
def readDigits (base : Nat) : Nat → List Char → Option Nat
  | acc, [] => some acc
  | acc, ch :: rest =>
    match digitValue base ch with
    | some v => readDigits base (acc * base + v) rest
    | none => none

/-- A decimal literal, or a hexadecimal one with the prefix 0x (R87). -/
def readLiteral : List Char → Option Nat
  | [] => none
  | '0' :: 'x' :: ds => if ds.isEmpty then none else readDigits 16 0 ds
  | ds => readDigits 10 0 ds

/-- The text up to the first occurrence of a separator, and the text after it if there is one. -/
def splitAtChar (sep : Char) : List Char → List Char × Option (List Char)
  | [] => ([], none)
  | ch :: rest =>
    if ch = sep then ([], some rest)
    else
      let r := splitAtChar sep rest
      (ch :: r.1, r.2)

/-- The text without its leading blanks. -/
def dropBlanks : List Char → List Char
  | [] => []
  | ch :: rest => if ch = ' ' then dropBlanks rest else ch :: rest

/-- One operand, or two operands separated by a comma. -/
def readOperands (text : List Char) : Option (Nat × Option Nat) :=
  let p := splitAtChar ',' (dropBlanks text)
  match readLiteral p.1, p.2 with
  | some v, none => some (v, none)
  | some v, some rest =>
    match readLiteral (dropBlanks rest) with
    | some w => some (v, some w)
    | none => none
  | none, _ => none

/-- The command of a mnemonic with operands `c` and perhaps `v`; none where the mnemonic, the number of operands or the range
of one does not fit. -/
def assemble (mn : List Char) (c : Nat) (v : Option Nat) : Option Instr :=
  if 16 ≤ c then none
  else
    let ch := BitVec.ofNat 4 c
    match v with
    | none =>
      if mn = ['M', 'E', 'A', 'S'] then some (.meas ch)
      else if mn = ['M', 'E', 'D', '3'] then some (.med3 ch)
      else if mn = ['S', 'C', 'A', 'N'] then some (.scan ch)
      else if mn = ['R', 'D', 'R', 'E', 'F'] then some (.rdref ch)
      else none
    | some k =>
      if 256 ≤ k then none
      else if mn = ['A', 'V', 'G'] then some (.avg ch (BitVec.ofNat 8 k))
      else if mn = ['E', 'V', 'A', 'L'] then some (.eval ch (BitVec.ofNat 8 k))
      else none

/-- Read one line of assembler text (R87). -/
def parseCommand (text : List Char) : Option Instr :=
  let p := splitAtChar ' ' text
  match p.2 with
  | none => none
  | some rest =>
    match readOperands rest with
    | some (c, v) => assemble p.1 c v
    | none => none

end Sys2Proof.Machine
end

