-- ==== Sys2Proof/Machine/Phases.lean ====
section
/-!
DEFINITION. The step-level reading of measureOnce (spec/40_sampler.md R118): four phases, one loop iteration a COUNT step.
The composition of the phases must equal R111.
-/

namespace Sys2Proof.Machine

/-- The phases of R118, and the RawSample once `FIN` is over. -/
inductive Phase where
  | disch
  | arm
  | count
  | fin
  | done (v : U8)
  deriving DecidableEq, Repr

/-- One step of the sampler on channel `c` (R118). -/
def phaseStep (c : U4) : Phase × State → Phase × State
  | (.disch, s) => (.arm, driveLow c s.startExecution)
  | (.arm, s) => (.count, (configureInput c (critEnter s)).setCnt 1)
  | (.count, s) =>
    match countTick c s with
    | (true, s') => (.fin, s')
    | (false, s') => (.count, s')
  | (.fin, s) =>
    let s' := configureOutput c (critLeave s)
    (.done (sub8 s'.cnt 1), s'.finishExecution)
  | (.done v, s) => (.done v, s)

/-- `n` steps of the sampler. -/
def phaseRun (c : U4) : Nat → Phase × State → Phase × State
  | 0, p => p
  | n + 1, p => phaseRun c n (phaseStep c p)

end Sys2Proof.Machine
end

