-- ==== Sys2Proof/Safety.lean ====
section
/-!
DEFINITION. What counts as a good state and a good run, in the terms the statements use: the invariant of the machine
(spec/10_state.md R20 to R30), the grammar of the event trace (spec/40_sampler.md R114), the premise ChargeModel
(spec/20_memory.md R61) and the host's duty before a cycle (spec/70_reset_and_hazards.md R228).
-/

namespace Sys2Proof.Machine

/-! ### The event trace as a language -/

/-- Where a trace stands between the events of one measureOnce (R114). -/
inductive TracePos where
  /-- Outside every measurement. -/
  | idle
  /-- `DriveLow(c)` was the last event. -/
  | driven (c : U4)
  /-- The critical region has been opened for channel `c`. -/
  | entered (c : U4)
  /-- Pin `c` is an input and `r` reads have all been low. -/
  | reading (c : U4) (r : Nat)
  /-- A read of pin `c` was high. -/
  | high (c : U4)
  /-- The critical region has been closed. -/
  | left (c : U4)
  deriving DecidableEq, Repr

/-- The next position, or none for an event R114 does not allow there. The host's pad writes stand outside measurements
(R229). -/
def TracePos.after : TracePos → Event → Option TracePos
  | .idle, .hostSetOut _ _ => some .idle
  | .idle, .driveLow c => some (.driven c)
  | .driven c, .critEnter => some (.entered c)
  | .entered c, .cfgIn d => if d = c then some (.reading c 0) else none
  | .reading c r, .read d b =>
    if d = c ∧ r < maxReads then some (if b then .high c else .reading c (r + 1)) else none
  | .reading c r, .critLeave => if r = maxReads then some (.left c) else none
  | .high c, .critLeave => some (.left c)
  | .left c, .cfgOut d => if d = c then some .idle else none
  | _, _ => none

/-- The position after a list of events. -/
def traceScan : TracePos → List Event → Option TracePos
  | p, [] => some p
  | p, e :: es =>
    match p.after e with
    | some q => traceScan q es
    | none => none

/-- The trace is a sequence of whole measurements of the form of R114, with the host's pad writes between them. -/
def traceOk (es : List Event) : Bool := decide (traceScan .idle es = some .idle)

/-- How many reads a list of events holds (R240). -/
def readsIn (es : List Event) : Nat :=
  es.countP fun e => match e with
    | .read _ _ => true
    | _ => false

/-- How many executions of measureOnce a list of events holds. -/
def measurementsIn (es : List Event) : Nat :=
  es.countP fun e => match e with
    | .critEnter => true
    | _ => false

/-- The channel an event belongs to; the critical region's own events belong to none. -/
def Event.chan? : Event → Option U4
  | .driveLow c => some c
  | .cfgIn c => some c
  | .cfgOut c => some c
  | .read c _ => some c
  | .hostSetOut c _ => some c
  | .critEnter => none
  | .critLeave => none

/-- How many measurements the filter of a strap makes (R240). -/
def filterMeasures (g : ChanCfg) : Nat :=
  match g.fsel with
  | .average => g.nsamp.toNat + 1
  | .median3 => 4

/-- The filter command a strap stands for (R164): `AVG c, NSAMP` or `MED3 c`. -/
def filterCommand (g : ChanCfg) (c : U4) : Instr :=
  match g.fsel with
  | .average => .avg c g.nsamp
  | .median3 => .med3 c

/-- How many measurements a command with legal operands makes (R240). -/
def measuresOf (i : Instr) (s : State) : Nat :=
  match i with
  | .meas _ => 1
  | .avg _ n => n.toNat + 1
  | .med3 _ => 4
  | .eval _ _ => 0
  | .scan c => filterMeasures (s.cfg c)
  | .rdref _ => 0

/-! ### The invariant -/

/-- R21 (c): the reference is still the reset value, or it fits 8 + OFFSET bits. -/
def Channel.refOk (ch : Channel) : Bool :=
  decide (ch.ref = 0xFFFF) || decide (ch.ref.toNat < 2 ^ (8 + ch.cfg.offset.toNat))

/-- A channel between commands: its strap well formed (R6), its pad an output (R241), its reference in range (R21). -/
def Channel.ok (ch : Channel) : Bool := ch.cfg.wf && ch.padOe && ch.refOk

/-- A response keeps R88: a rejected command's VAL is 0. -/
def Response.ok (r : Response) : Bool := decide (r.st = statusOk) || decide (r.val = 0)

/-- The invariant of the machine between commands: a legal configuration (R5, R6), every channel in order, no critical region
open (R23), not busy (R29), a trace of whole measurements (R114), responses in order (R88). -/
def State.inv (s : State) : Bool :=
  decide (1 ≤ s.nch) && decide (s.nch ≤ 16) && s.chans.all Channel.ok &&
    !s.crit && !s.busy && traceOk s.trace && s.responses.all Response.ok

/-! ### Premises and duties -/

/-- Every pad is low, the host's duty before the first sampling command of a cycle (R228, R230). -/
def State.allLow (s : State) : Bool := s.chans.all fun ch => !ch.padOut

/-- The level of read `i` when the pin first reads high at read `k` (`none`: never), R61. -/
def chargeLevel (k : Option Nat) (i : Nat) : Bool :=
  match k with
  | some k => decide (k ≤ i)
  | none => false

/-- `ChargeModel(K)` (R61) for the first `ks.length` executions of measureOnce from here on, whichever channel they are on:
read `i` of execution `m` returns 1 exactly when K(m) is not `never` and `i >= K(m)`. -/
def ChargeModel (ks : List (Option Nat)) (e : Env) : Prop :=
  ∀ (c : U4) (m i : Nat) (k : Option Nat), ks[m]? = some k → 1 ≤ i → i ≤ maxReads →
    e.levelOf c (m + 1) i = chargeLevel k i

/-- The sample an execution returns under `K(m) = k` (R61): `k - 1` up to 254, else 255. -/
def chargeSample (k : Option Nat) : U8 :=
  match k with
  | some k => if k ≤ maxReads then BitVec.ofNat 8 (k - 1) else 255
  | none => 255

/-- The RawSample of the `m`-th execution of measureOnce from here on, if it is on channel `c`, as R112 has it: the number of
reads before the first high one, at most 255. -/
def Env.sample (e : Env) (c : U4) (m : Nat) : U8 :=
  BitVec.ofNat 8 ((List.range maxReads).takeWhile fun i => !e.levelOf c m (i + 1)).length

/-- Answers that realise `ChargeModel(K)`: the reads of each execution, written out. -/
def chargeScript (ks : List (Option Nat)) : List (List Bool) :=
  ks.map fun k => (List.range maxReads).map fun i => chargeLevel k (i + 1)

end Sys2Proof.Machine
end

