-- ==== Sys2Proof/Certificates/Slice0/Obligations.lean ====
section
/-!
DEFINITION. The statements for the provers. Each docstring names the rule of spec/ it formalises. `s.env.levelOf c 1 i` is the
bit the level oracle gives to read `i` of the coming execution of measureOnce on channel `c`, and `s.env.sample c m` the
RawSample of the `m`-th execution from here: both are universally quantified with the state (assumption log 1).
-/

open Sys2Proof Sys2Proof.Machine

/-! ### Encoding and decoding -/

/-- R80, R82, R84: a word decodes to a command exactly when it is that command's word and the command's operands are legal;
no bit of the word is dropped. -/
def Obligations.DecodeEncodeAgree : Prop :=
  ∀ (nch : Nat) (w : U16) (i : Instr), decode nch w = .ok i ↔ encode i = w ∧ i.wf nch = true

/-- R82: the five checks in their order, on the word read as a number. -/
def Obligations.DecoderChecksInOrder : Prop :=
  ∀ (nch : Nat) (w : U16),
    let op := w.toNat / 4096
    let c := w.toNat / 256 % 16
    let imm := w.toNat % 256
    decode nch w =
      if op < 1 ∨ 6 < op then .error .illegalCmd
      else if (op = 1 ∨ op = 3 ∨ op = 5 ∨ op = 6) ∧ imm ≠ 0 then .error .illegalCmd
      else if nch ≤ c then .error .badChannel
      else if op = 2 ∧ imm = 0 then .error .nZero
      else .ok (
        if op = 1 then .meas (BitVec.ofNat 4 c)
        else if op = 2 then .avg (BitVec.ofNat 4 c) (BitVec.ofNat 8 imm)
        else if op = 3 then .med3 (BitVec.ofNat 4 c)
        else if op = 4 then .eval (BitVec.ofNat 4 c) (BitVec.ofNat 8 imm)
        else if op = 5 then .scan (BitVec.ofNat 4 c)
        else .rdref (BitVec.ofNat 4 c))

/-- R84: a word selects a row exactly when `w & mask == match`. -/
def Obligations.OpcodeMapRows : Prop :=
  ∀ w : U16,
    ((∃ c, selectCommand w = some (.meas c)) ↔ w &&& 0xF0FF = 0x1000) ∧
    ((∃ c n, selectCommand w = some (.avg c n)) ↔ w &&& 0xF000 = 0x2000) ∧
    ((∃ c, selectCommand w = some (.med3 c)) ↔ w &&& 0xF0FF = 0x3000) ∧
    ((∃ c x, selectCommand w = some (.eval c x)) ↔ w &&& 0xF000 = 0x4000) ∧
    ((∃ c, selectCommand w = some (.scan c)) ↔ w &&& 0xF0FF = 0x5000) ∧
    ((∃ c, selectCommand w = some (.rdref c)) ↔ w &&& 0xF0FF = 0x6000)

/-- Words of spec/95_test_vectors.md section 4 (NCH = 2), written out bit by bit. -/
def Obligations.SampleWordsDecode : Prop :=
  decode 2 0b0001000100000000 = .ok (.meas 1) ∧
  decode 2 0b0010000000000101 = .ok (.avg 0 5) ∧
  decode 2 0b0011000100000000 = .ok (.med3 1) ∧
  decode 2 0b0100000000011110 = .ok (.eval 0 30) ∧
  decode 2 0b0101000000000000 = .ok (.scan 0) ∧
  decode 2 0b0110000100000000 = .ok (.rdref 1) ∧
  decode 2 0b0001111100000001 = .error .illegalCmd ∧
  decode 2 0b0010111100000000 = .error .badChannel ∧
  decode 2 0b0010000000000000 = .error .nZero

/-- R87: reading the text of a command gives the command back. How blanks and ranges are read is the model's choice
(assumption log 18). -/
def Obligations.AssemblerRoundTrip : Prop :=
  ∀ i : Instr, parseCommand (printCommand i) = some i

/-! ### A step, a response, a rejection -/

/-- R31, R82: on an idle block a command word that decodes to a command is executed, and the host's list moves on. -/
def Obligations.StepRunsDecodedCommand : Prop :=
  ∀ (s : State) (w : U16) (rest : List HostAction) (i : Instr),
    s.busy = false → s.host = .command w :: rest → decode s.nch w = .ok i →
      step s = exec i { s with host := rest }

/-- R192: a rejected command changes nothing, and the response is the code with VAL = 0. -/
def Obligations.RejectedCommandChangesNothing : Prop :=
  ∀ (s : State) (w : U16) (rest : List HostAction) (r : Reject),
    s.busy = false → s.host = .command w :: rest → decode s.nch w = .error r →
      step s = .next
        { s with
          host := rest
          responses := s.responses ++
            [{ st := match r with
                | .nZero => 1
                | .badChannel => 2
                | .illegalCmd => 3
               val := 0 }] }

/-- R191, R192, R193 for a command whose operands are illegal: BAD_CHANNEL before N_ZERO, nothing changed. -/
def Obligations.IllegalOperandsAreRejected : Prop :=
  ∀ (i : Instr) (s : State), i.wf s.nch = false →
    exec i s = .next
      { s with
        busy := false
        responses := s.responses ++ [{ st := if s.nch ≤ i.chan.toNat then 2 else 1, val := 0 }] }

/-- R88: every accepted command, a word of any kind, produces exactly one response, with the status of its outcome. -/
def Obligations.EveryCommandGetsOneResponse : Prop :=
  ∀ (s : State) (w : U16) (rest : List HostAction),
    s.busy = false → s.host = .command w :: rest →
      ∃ t r, step s = .next t ∧ t.responses = s.responses ++ [r] ∧ t.busy = false ∧
        r.st = (match decode s.nch w with
          | .ok _ => (0 : BitVec 2)
          | .error .nZero => 1
          | .error .badChannel => 2
          | .error .illegalCmd => 3) ∧
        (r.st ≠ 0 → r.val = 0)

/-- R89, the zero fields of VAL: which bits of a completed command's response can be set. -/
def Obligations.ResponseLayouts : Prop :=
  ∀ (s : State) (i : Instr), i.wf s.nch = true →
    ∃ t v, exec i s = .next t ∧ t.responses = s.responses ++ [{ st := 0, val := v }] ∧
      match i with
      | .meas _ => v.toNat < 2 ^ 8
      | .avg _ _ => v.toNat < 2 ^ 8
      | .med3 _ => v.toNat < 2 ^ 8
      | .eval _ _ => v.toNat < 2 ^ 1
      | .scan _ => v.toNat < 2 ^ 9
      | .rdref c => v = s.ref c

/-- R230, U19, R51: the host's moves that the spec gives no meaning are refused by name, and no other (assumption logs 7
and 8). -/
def Obligations.StepStopsOnlyWithoutAMove : Prop :=
  ∀ (s : State) (r : Refusal), step s = .refused r ↔
    ∃ a rest, s.host = a :: rest ∧
      ((s.busy = true ∧ r = .commandWhileBusy ∧ ((∃ w, a = .command w) ∨ ∃ w, a = .resetDuring w)) ∨
       (∃ c b, a = .setOut c b ∧ s.busy = true ∧ r = .padWriteWhileBusy) ∨
       (∃ c b, a = .setOut c b ∧ s.busy = false ∧ s.nch ≤ c.toNat ∧ r = .noSuchPad))

/-- R203, R220: with nothing to do the block holds all its state (assumption log 2). -/
def Obligations.IdleBlockHoldsItsState : Prop :=
  ∀ s : State, s.host = [] → step s = .next s

/-! ### The GPIO primitives and the oracle -/

/-- R56, R57, R58: each writing primitive changes its own bit of its own pad and appends its event. -/
def Obligations.GpioWritesOnePadBit : Prop :=
  ∀ (s : State) (c : U4), c.toNat < s.nch →
    (∀ d, (driveLow c s).padOut d = (if d = c then false else s.padOut d) ∧
      (driveLow c s).padOe d = s.padOe d ∧ (driveLow c s).ref d = s.ref d) ∧
    (driveLow c s).trace = s.trace ++ [.driveLow c] ∧
    (∀ d, (configureInput c s).padOe d = (if d = c then false else s.padOe d) ∧
      (configureInput c s).padOut d = s.padOut d ∧ (configureInput c s).ref d = s.ref d) ∧
    (configureInput c s).trace = s.trace ++ [.cfgIn c] ∧
    (∀ d, (configureOutput c s).padOe d = (if d = c then true else s.padOe d) ∧
      (configureOutput c s).padOut d = s.padOut d ∧ (configureOutput c s).ref d = s.ref d) ∧
    (configureOutput c s).trace = s.trace ++ [.cfgOut c]

/-- R59: a read returns the bit the environment gives, changes no state of the block and appends the event with that bit.
The counter of reads is the model's own (assumption log 1). -/
def Obligations.ReadLevelChangesNoState : Prop :=
  ∀ (s : State) (c : U4),
    (readLevel c s).1 = s.env.levelOf c 1 (s.env.reads + 1) ∧
    (readLevel c s).2 =
      { s with
        trace := s.trace ++ [.read c (readLevel c s).1]
        env := { s.env with reads := s.env.reads + 1 } }

/-- R60: the unconstrained model admits every sequence of bits, whatever the executions they are drawn in. -/
def Obligations.OracleAdmitsEveryBitSequence : Prop :=
  ∀ (s : State) (answers : List (List Bool)), ∃ t : State, { t with env := s.env } = s ∧
    ∀ (c : U4) (m i : Nat) (bits : List Bool) (b : Bool), answers[m]? = some bits → bits[i]? = some b →
      t.env.levelOf c (m + 1) (i + 1) = b

/-! ### The RC-charge-timer -/

/-- R112: the sample, CNT and the number of reads as functions of the bits drawn, for MEAS: the first high read is read `k`,
or none of the first 255 is high. -/
def Obligations.MeasAnswersTheChargeTime : Prop :=
  ∀ (s : State) (c : U4), c.toNat < s.nch →
    (∀ k, 1 ≤ k → k ≤ 255 → s.env.levelOf c 1 k = true → (∀ i, 1 ≤ i → i < k → s.env.levelOf c 1 i = false) →
      ∃ t, exec (.meas c) s = .next t ∧
        t.responses = s.responses ++ [{ st := 0, val := BitVec.ofNat 16 (k - 1) }] ∧
        t.cnt = BitVec.ofNat 8 k ∧ readsIn t.trace = readsIn s.trace + k) ∧
    ((∀ i, 1 ≤ i → i ≤ 255 → s.env.levelOf c 1 i = false) →
      ∃ t, exec (.meas c) s = .next t ∧
        t.responses = s.responses ++ [{ st := 0, val := 255 }] ∧
        t.cnt = 0 ∧ readsIn t.trace = readsIn s.trace + 255)

/-- R114: the event trace of one measureOnce, event by event. -/
def Obligations.MeasureOnceTrace : Prop :=
  ∀ (s : State) (c : U4), ∃ r, 1 ≤ r ∧ r ≤ 255 ∧
    (measureOnce c s).2.trace =
      s.trace ++ [.driveLow c, .critEnter, .cfgIn c] ++
        (List.range r).map (fun i => .read c (s.env.levelOf c 1 (i + 1))) ++ [.critLeave, .cfgOut c] ∧
    (∀ i, 1 ≤ i → i < r → s.env.levelOf c 1 i = false) ∧
    (s.env.levelOf c 1 r = true ∨ r = 255)

/-- R115: the state after measureOnce. The pad of channel `c` is driven low and CRIT is 0; every reference, every strap, every
other pad, NCH, busy, the responses and the host's actions are as before. CNT is one above the sample; the trace and the
environment move on as MeasureOnceTrace and assumption log 1 have it. -/
def Obligations.MeasureOnceLeavesPadDrivenLow : Prop :=
  ∀ (s : State) (c : U4), c.toNat < s.nch →
    let t := (measureOnce c s).2
    t.padOut c = false ∧ t.padOe c = true ∧ t.crit = false ∧
    (∀ d, t.ref d = s.ref d ∧ t.cfg d = s.cfg d) ∧
    (∀ d, d ≠ c → t.padOut d = s.padOut d ∧ t.padOe d = s.padOe d) ∧
    t.cnt - 1 = (measureOnce c s).1 ∧
    t.nch = s.nch ∧ t.busy = s.busy ∧ t.responses = s.responses ∧ t.host = s.host

/-- R61: under ChargeModel(K) the coming execution returns K(1) - 1 up to 254 and 255 otherwise, and the rest of K holds for
the executions after it. -/
def Obligations.ChargeModelGivesTheSample : Prop :=
  ∀ (s : State) (c : U4) (k : Option Nat) (ks : List (Option Nat)),
    c.toNat < s.nch → ChargeModel (k :: ks) s.env →
      ∃ t, exec (.meas c) s = .next t ∧
        t.responses = s.responses ++ [{ st := 0, val := (chargeSample k).setWidth 16 }] ∧ ChargeModel ks t.env

/-- R118: the composition of the phases equals measureOnce: the sampler is over after at most 258 phase steps, not before its
fourth, and stays over. -/
def Obligations.PhasesComposeToMeasureOnce : Prop :=
  ∀ (s : State) (c : U4), ∃ n, 4 ≤ n ∧ n ≤ 258 ∧
    (∀ m, m < n → ∀ v, (phaseRun c m (.disch, s)).1 ≠ .done v) ∧
    (∀ m, n ≤ m → phaseRun c m (.disch, s) = (.done (measureOnce c s).1, (measureOnce c s).2))

/-- R240, R116: how many measurements and reads each command makes, whatever the oracle answers; none when its operands are
rejected. -/
def Obligations.ReadsPerCommandAreBounded : Prop :=
  ∀ (s : State) (i : Instr), (i.wf s.nch = true → (s.cfg i.chan).wf = true) →
    ∃ t, exec i s = .next t ∧
      let m := if i.wf s.nch then measuresOf i s else 0
      measurementsIn t.trace = measurementsIn s.trace + m ∧
      readsIn s.trace + m ≤ readsIn t.trace ∧ readsIn t.trace ≤ readsIn s.trace + 255 * m

/-! ### The filters -/

/-- R141: AVG answers floor((v_1 + ... + v_n) / n) of the n samples after the throwaway one, in n + 1 measurements. -/
def Obligations.AvgAnswersTheTruncatedMean : Prop :=
  ∀ (s : State) (c : U4) (n : U8), c.toNat < s.nch → n ≠ 0 →
    ∃ t, exec (.avg c n) s = .next t ∧
      t.responses = s.responses ++
        [{ st := 0
           val := BitVec.ofNat 16
            (((List.range n.toNat).map fun j => (s.env.sample c (j + 2)).toNat).sum / n.toNat) }] ∧
      t.env.exec = s.env.exec + (n.toNat + 1)

/-- R143 (c), (d): the mean lies between any bounds of the live samples; equal samples are their mean. -/
def Obligations.AvgLiesBetweenTheSamples : Prop :=
  ∀ (s : State) (c : U4) (n : U8) (lo hi : Nat), c.toNat < s.nch → n ≠ 0 →
    (∀ j, j < n.toNat → lo ≤ (s.env.sample c (j + 2)).toNat ∧ (s.env.sample c (j + 2)).toNat ≤ hi) →
      ∃ t v, exec (.avg c n) s = .next t ∧ t.responses = s.responses ++ [{ st := 0, val := v }] ∧
        lo ≤ v.toNat ∧ v.toNat ≤ hi

/-- R143 (a): the 16-bit accumulator of the average never wraps. -/
def Obligations.AccumulatorNeverWraps : Prop :=
  ∀ (s : State) (c : U4) (n : Nat), n ≤ 255 →
    (sumSamples c n 0 s).1.toNat = ((List.range n).map fun j => (s.env.sample c (j + 1)).toNat).sum

/-- R147: MED3 answers the middle of the three samples after the throwaway one, whatever their order and ties, in four
measurements of 4 to 1020 reads. -/
def Obligations.Med3AnswersTheMiddleSample : Prop :=
  ∀ (s : State) (c : U4), c.toNat < s.nch →
    ∃ t lo v hi, exec (.med3 c) s = .next t ∧
      t.responses = s.responses ++ [{ st := 0, val := v.setWidth 16 }] ∧
      List.Perm [lo, v, hi] [s.env.sample c 2, s.env.sample c 3, s.env.sample c 4] ∧
      lo.toNat ≤ v.toNat ∧ v.toNat ≤ hi.toNat ∧
      t.env.exec = s.env.exec + 4 ∧
      readsIn s.trace + 4 ≤ readsIn t.trace ∧ readsIn t.trace ≤ readsIn s.trace + 1020

/-! ### The calibrator -/

/-- R161: the decision and the new reference of EVAL, in numbers. -/
def Obligations.EvalDecidesAndUpdatesTheReference : Prop :=
  ∀ (s : State) (c : U4) (x : U8), c.toNat < s.nch → (s.cfg c).wf = true →
    let o := (s.cfg c).offset.toNat
    let b := (s.ref c).toNat / 2 ^ o % 256
    let d := (x.toNat + 256 - b) % 256
    ∃ t, exec (.eval c x) s = .next t ∧
      t.responses = s.responses ++ [{ st := 0, val := if (s.cfg c).thresh.toNat < d then 1 else 0 }] ∧
      t.ref c = if x.toNat ≤ b then BitVec.ofNat 16 (x.toNat * 2 ^ o) else s.ref c + 1

/-- R21: the laws of the reference, for every evaluation: (a) a snap never raises it; (b) a cool-down adds exactly 1 and never
wraps; (c) from the reset value or a value below 2^(8+o) it goes below 2^(8+o), where the truncation changes nothing; (d) from
the reset value it snaps. -/
def Obligations.ReferenceLaws : Prop :=
  ∀ (s : State) (c : U4) (x : U8), c.toNat < s.nch → (s.cfg c).wf = true →
    let o := (s.cfg c).offset.toNat
    let b := (s.ref c).toNat / 2 ^ o % 256
    ∃ t, exec (.eval c x) s = .next t ∧
      (x.toNat ≤ b → (t.ref c).toNat = x.toNat * 2 ^ o ∧ (t.ref c).toNat ≤ (s.ref c).toNat) ∧
      (b < x.toNat → s.ref c ≠ 0xFFFF ∧ (t.ref c).toNat = (s.ref c).toNat + 1) ∧
      (s.ref c = 0xFFFF ∨ (s.ref c).toNat < 2 ^ (8 + o) → (t.ref c).toNat < 2 ^ (8 + o)) ∧
      ((s.ref c).toNat < 2 ^ (8 + o) → (s.ref c).toNat / 2 ^ o ≤ 255) ∧
      (s.ref c = 0xFFFF → b = 255 ∧ x.toNat ≤ b)

/-- R221: the first evaluation on a channel after reset snaps, so that the baseline is then its sample, and decides true
exactly when the sample is at least the threshold and not 255. -/
def Obligations.FirstEvaluationCalibrates : Prop :=
  ∀ (s : State) (c : U4) (x : U8), c.toNat < s.nch → (s.cfg c).wf = true → s.ref c = 0xFFFF →
    ∃ t, exec (.eval c x) s = .next t ∧
      (t.ref c).toNat = x.toNat * 2 ^ (s.cfg c).offset.toNat ∧
      baseline (t.ref c) (t.cfg c).offset = x ∧
      t.responses = s.responses ++
        [{ st := 0, val := if (s.cfg c).thresh.toNat ≤ x.toNat ∧ x.toNat ≠ 255 then 1 else 0 }]

/-- R163 (e): evaluations in a row, each with a sample of its own above the baseline at its turn, raise a reference just snapped
to `x` by exactly one each, and the baseline by one every 2^OFFSET of them. -/
def Obligations.CoolDownsRaiseTheBaselineSlowly : Prop :=
  ∀ (s : State) (c : U4) (x : U8) (ys : List U8), c.toNat < s.nch → (s.cfg c).wf = true → s.busy = false →
    s.host = ys.map (fun y => .command (encode (.eval c y))) →
    (s.ref c).toNat = x.toNat * 2 ^ (s.cfg c).offset.toNat →
    (∀ i y, ys[i]? = some y → x.toNat + i / 2 ^ (s.cfg c).offset.toNat < y.toNat) →
      ∃ t, Host.Core.run Sys2Proof.core ys.length s = .next t ∧ t.host = [] ∧
        (t.ref c).toNat = x.toNat * 2 ^ (s.cfg c).offset.toNat + ys.length ∧
        (baseline (t.ref c) (s.cfg c).offset).toNat = x.toNat + ys.length / 2 ^ (s.cfg c).offset.toNat

/-- R25: with THRESH = 255 neither EVAL nor SCAN ever reports a touch. -/
def Obligations.LargestThresholdNeverTouches : Prop :=
  ∀ (s : State) (c : U4), c.toNat < s.nch → (s.cfg c).thresh = 255 →
    (∀ x, ∃ t, exec (.eval c x) s = .next t ∧ t.responses = s.responses ++ [{ st := 0, val := 0 }]) ∧
    (∃ t v, exec (.scan c) s = .next t ∧ t.responses = s.responses ++ [{ st := 0, val := v }] ∧ v.toNat < 2 ^ 8)

/-- R164: SCAN has exactly the effect and the result of the configured filter command followed by EVAL with its result. -/
def Obligations.ScanIsFilterThenEval : Prop :=
  ∀ (s : State) (c : U4), c.toNat < s.nch → (s.cfg c).wf = true →
    ∃ (t t1 t2 : State) (f : U8) (touch : Bool),
      exec (.scan c) s = .next t ∧
      exec (filterCommand (s.cfg c) c) s = .next t1 ∧
      t1.responses = s.responses ++ [{ st := 0, val := f.setWidth 16 }] ∧
      exec (.eval c f) t1 = .next t2 ∧
      t2.responses = t1.responses ++ [{ st := 0, val := if touch then 1 else 0 }] ∧
      t = { t2 with
        responses := s.responses ++ [{ st := 0, val := BitVec.ofNat 16 (f.toNat + if touch then 256 else 0) }] }

/-- R166: RDREF answers the reference and writes nothing. -/
def Obligations.RdrefAnswersTheReference : Prop :=
  ∀ (s : State) (c : U4), c.toNat < s.nch →
    exec (.rdref c) s =
      .next { s with busy := false, responses := s.responses ++ [{ st := 0, val := s.ref c }] }

/-! ### Frames -/

/-- The frame of MEAS, AVG and MED3 (R113, R142, R146, R20, R71): no reference, no strap, no other channel's pad and no host
action changes; the pad of the channel ends driven low (or, when the command is rejected, as it was); CNT may change. -/
def Obligations.SamplingFrame : Prop :=
  ∀ (s t : State) (c : U4) (i : Instr), (i = .meas c ∨ (∃ n, i = .avg c n) ∨ i = .med3 c) →
    exec i s = .next t →
      (∀ d, t.ref d = s.ref d ∧ t.cfg d = s.cfg d) ∧
      (∀ d, d ≠ c → t.padOut d = s.padOut d ∧ t.padOe d = s.padOe d) ∧
      (if i.wf s.nch then t.padOut c = false ∧ t.padOe c = true ∧ t.crit = false
        else t.padOut c = s.padOut c ∧ t.padOe c = s.padOe c ∧ t.crit = s.crit ∧ t.cnt = s.cnt) ∧
      t.nch = s.nch ∧ t.busy = false ∧ t.host = s.host ∧
      (∃ r, t.responses = s.responses ++ [r]) ∧
      (∃ es, t.trace = s.trace ++ es ∧ ∀ e ∈ es, e.chan? = some c ∨ e.chan? = none)

/-- The frame of EVAL (R160, R162): it writes REF[c] and nothing else; it makes no GPIO event. -/
def Obligations.EvalFrame : Prop :=
  ∀ (s t : State) (c : U4) (x : U8), exec (.eval c x) s = .next t →
    (∀ d, d ≠ c → t.ref d = s.ref d) ∧
    (∀ d, t.cfg d = s.cfg d ∧ t.padOut d = s.padOut d ∧ t.padOe d = s.padOe d) ∧
    t.nch = s.nch ∧ t.cnt = s.cnt ∧ t.crit = s.crit ∧ t.busy = false ∧ t.trace = s.trace ∧
    t.env = s.env ∧ t.host = s.host ∧ (∃ r, t.responses = s.responses ++ [r])

/-- The frame of SCAN (R164): REF[c] and the pad of channel `c` change, and CNT; no other channel does. -/
def Obligations.ScanFrame : Prop :=
  ∀ (s t : State) (c : U4), exec (.scan c) s = .next t →
    (∀ d, d ≠ c → t.ref d = s.ref d ∧ t.padOut d = s.padOut d ∧ t.padOe d = s.padOe d) ∧
    (∀ d, t.cfg d = s.cfg d) ∧
    (if c.toNat < s.nch then t.padOut c = false ∧ t.padOe c = true ∧ t.crit = false
      else t.padOut c = s.padOut c ∧ t.padOe c = s.padOe c ∧ t.ref c = s.ref c ∧ t.crit = s.crit ∧
        t.cnt = s.cnt) ∧
    t.nch = s.nch ∧ t.busy = false ∧ t.host = s.host ∧
    (∃ r, t.responses = s.responses ++ [r]) ∧
    (∃ es, t.trace = s.trace ++ es ∧ ∀ e ∈ es, e.chan? = some c ∨ e.chan? = none)

/-! ### The whole machine -/

/-- R71: the response of a command on channel `c` and the new REF[c] depend only on the command, CFG[c], REF[c] and the bits
drawn for channel `c`. -/
def Obligations.ChannelsAreIndependent : Prop :=
  ∀ (s1 s2 : State) (i : Instr), i.wf s1.nch = true → i.wf s2.nch = true →
    s1.cfg i.chan = s2.cfg i.chan → s1.ref i.chan = s2.ref i.chan →
    (∀ m j, 1 ≤ m → 1 ≤ j → j ≤ 255 → s1.env.levelOf i.chan m j = s2.env.levelOf i.chan m j) →
      ∃ t1 t2 r, exec i s1 = .next t1 ∧ exec i s2 = .next t2 ∧
        t1.responses = s1.responses ++ [r] ∧ t2.responses = s2.responses ++ [r] ∧
        t1.ref i.chan = t2.ref i.chan

/-- R20: a reference changes only by reset, or by EVAL or SCAN on its own channel. -/
def Obligations.OnlyEvaluateWritesTheReference : Prop :=
  ∀ (s t : State) (c : U4), step s = .next t → t.ref c ≠ s.ref c →
    ∃ a rest, s.host = a :: rest ∧
      (a = .reset ∨ (∃ w, a = .resetDuring w) ∨
        ∃ w, a = .command w ∧ ((∃ x, decode s.nch w = .ok (.eval c x)) ∨ decode s.nch w = .ok (.scan c)))

/-- R5, R25: no step, reset included, changes the number of channels or a strap. -/
def Obligations.StrapsNeverChange : Prop :=
  ∀ s t : State, step s = .next t → t.chans.map Channel.cfg = s.chans.map Channel.cfg

/-- The machine after reset meets the invariant, whatever legal straps the integrator gave (R6, R30). -/
def Obligations.ResetMeetsTheInvariant : Prop :=
  State.reset.inv = true ∧ ∀ gs, strapsWf gs = true → (State.resetWith gs).inv = true

/-- Every step keeps the invariant: legal straps (R6), references in range (R21 (c)), every pad an output and CRIT = 0 between
commands (R23, R241), not busy (R29), a trace of whole measurements (R114), VAL = 0 in every rejection (R88). -/
def Obligations.StepKeepsTheInvariant : Prop :=
  ∀ s t : State, s.inv = true → step s = .next t → t.inv = true

/-- R241: at the end of every run from reset, whatever the host does and the environment answers, CRIT = 0, every pad has
PADOE = 1, and the trace is a sequence of whole measurements. -/
def Obligations.EveryRunEndsQuiet : Prop :=
  ∀ (n : Nat) (acts : List HostAction) (e : Env) (t : State),
    Host.Core.run Sys2Proof.core n { State.reset with host := acts, env := e } = .next t →
      t.crit = false ∧ t.busy = false ∧ (∀ ch ∈ t.chans, ch.padOe = true) ∧ traceOk t.trace = true

/-- R30: reset, also in the place of a command's response, establishes the table of R30, leaves the straps, and gives no
response. -/
def Obligations.ResetEstablishesTheTable : Prop :=
  ∀ (s : State) (a : HostAction) (rest : List HostAction), s.host = a :: rest →
    (a = .reset ∨ (s.busy = false ∧ ∃ w, a = .resetDuring w)) →
      ∃ t, step s = .next t ∧ t.nch = s.nch ∧
        (∀ c : U4, c.toNat < s.nch →
          t.ref c = 0xFFFF ∧ t.padOut c = false ∧ t.padOe c = true ∧ t.cfg c = s.cfg c) ∧
        t.crit = false ∧ t.busy = false ∧ t.trace = [] ∧ t.responses = s.responses

/-- R229: `HostSetOut(c, b)` between commands writes the latch of one pad and appends its event; PADOE, the references and all
else stay. -/
def Obligations.HostSetOutWritesTheLatch : Prop :=
  ∀ (s : State) (c : U4) (b : Bool) (rest : List HostAction),
    s.busy = false → s.host = .setOut c b :: rest → c.toNat < s.nch →
      ∃ t, step s = .next t ∧ t.host = rest ∧ t.trace = s.trace ++ [.hostSetOut c b] ∧
        (∀ d, t.padOut d = (if d = c then b else s.padOut d) ∧ t.padOe d = s.padOe d ∧
          t.ref d = s.ref d ∧ t.cfg d = s.cfg d) ∧
        t.nch = s.nch ∧ t.cnt = s.cnt ∧ t.crit = s.crit ∧ t.busy = false ∧
        t.responses = s.responses ∧ t.env = s.env

/-- R229, R228 (1): `HOST CLEAR` drives every latch low, channel by channel in ascending order. -/
def Obligations.HostClearDrivesEveryLatchLow : Prop :=
  ∀ (s : State) (rest : List HostAction), s.busy = false → s.nch ≤ 16 → s.host = hostClear s.nch ++ rest →
    ∃ t, Host.Core.run Sys2Proof.core s.nch s = .next t ∧ t.host = rest ∧ t.allLow = true ∧
      t.trace = s.trace ++ (List.range s.nch).map (fun k => .hostSetOut (BitVec.ofNat 4 k) false) ∧
      (∀ c, t.ref c = s.ref c ∧ t.padOe c = s.padOe c ∧ t.cfg c = s.cfg c) ∧
      t.responses = s.responses ∧ t.cnt = s.cnt

/-- R228, R240: from every good state one whole host-loop cycle (HOST CLEAR, then SCAN of every channel) completes, with one OK
response per channel, every pad driven low and the invariant kept. -/
def Obligations.HostCycleCompletes : Prop :=
  ∀ s : State, s.inv = true →
    ∃ t rs, Host.Core.run Sys2Proof.core (2 * s.nch) { s with host := hostCycle s.nch } = .next t ∧
      t.inv = true ∧ t.allLow = true ∧ t.host = [] ∧
      t.responses = s.responses ++ rs ∧ rs.length = s.nch ∧ ∀ r ∈ rs, r.st = 0
end

