-- ==== Sys2Proof/Laws/State.lean ====
section
/-!
SUPPORT. What each update of the state leaves in each field, one lemma a field, each true by unfolding: later proofs never
unfold a record update.
-/

namespace Sys2Proof.Machine

@[simp] theorem State.updChan_chans (c : U4) (f : Channel → Channel) (s : State) : (s.updChan c f).chans = s.chans.modify (chanIndex c) f := rfl
@[simp] theorem State.updChan_cnt (c : U4) (f : Channel → Channel) (s : State) : (s.updChan c f).cnt = s.cnt := rfl
@[simp] theorem State.updChan_crit (c : U4) (f : Channel → Channel) (s : State) : (s.updChan c f).crit = s.crit := rfl
@[simp] theorem State.updChan_busy (c : U4) (f : Channel → Channel) (s : State) : (s.updChan c f).busy = s.busy := rfl
@[simp] theorem State.updChan_trace (c : U4) (f : Channel → Channel) (s : State) : (s.updChan c f).trace = s.trace := rfl
@[simp] theorem State.updChan_responses (c : U4) (f : Channel → Channel) (s : State) : (s.updChan c f).responses = s.responses := rfl
@[simp] theorem State.updChan_host (c : U4) (f : Channel → Channel) (s : State) : (s.updChan c f).host = s.host := rfl
@[simp] theorem State.updChan_env (c : U4) (f : Channel → Channel) (s : State) : (s.updChan c f).env = s.env := rfl

@[simp] theorem State.setRef_chans (c : U4) (v : U16) (s : State) : (s.setRef c v).chans = s.chans.modify (chanIndex c) fun ch => { ch with ref := v } := rfl
@[simp] theorem State.setRef_cnt (c : U4) (v : U16) (s : State) : (s.setRef c v).cnt = s.cnt := rfl
@[simp] theorem State.setRef_crit (c : U4) (v : U16) (s : State) : (s.setRef c v).crit = s.crit := rfl
@[simp] theorem State.setRef_busy (c : U4) (v : U16) (s : State) : (s.setRef c v).busy = s.busy := rfl
@[simp] theorem State.setRef_trace (c : U4) (v : U16) (s : State) : (s.setRef c v).trace = s.trace := rfl
@[simp] theorem State.setRef_responses (c : U4) (v : U16) (s : State) : (s.setRef c v).responses = s.responses := rfl
@[simp] theorem State.setRef_host (c : U4) (v : U16) (s : State) : (s.setRef c v).host = s.host := rfl
@[simp] theorem State.setRef_env (c : U4) (v : U16) (s : State) : (s.setRef c v).env = s.env := rfl

@[simp] theorem State.setPadOut_chans (c : U4) (b : Bool) (s : State) : (s.setPadOut c b).chans = s.chans.modify (chanIndex c) fun ch => { ch with padOut := b } := rfl
@[simp] theorem State.setPadOut_cnt (c : U4) (b : Bool) (s : State) : (s.setPadOut c b).cnt = s.cnt := rfl
@[simp] theorem State.setPadOut_crit (c : U4) (b : Bool) (s : State) : (s.setPadOut c b).crit = s.crit := rfl
@[simp] theorem State.setPadOut_busy (c : U4) (b : Bool) (s : State) : (s.setPadOut c b).busy = s.busy := rfl
@[simp] theorem State.setPadOut_trace (c : U4) (b : Bool) (s : State) : (s.setPadOut c b).trace = s.trace := rfl
@[simp] theorem State.setPadOut_responses (c : U4) (b : Bool) (s : State) : (s.setPadOut c b).responses = s.responses := rfl
@[simp] theorem State.setPadOut_host (c : U4) (b : Bool) (s : State) : (s.setPadOut c b).host = s.host := rfl
@[simp] theorem State.setPadOut_env (c : U4) (b : Bool) (s : State) : (s.setPadOut c b).env = s.env := rfl

@[simp] theorem State.setPadOe_chans (c : U4) (b : Bool) (s : State) : (s.setPadOe c b).chans = s.chans.modify (chanIndex c) fun ch => { ch with padOe := b } := rfl
@[simp] theorem State.setPadOe_cnt (c : U4) (b : Bool) (s : State) : (s.setPadOe c b).cnt = s.cnt := rfl
@[simp] theorem State.setPadOe_crit (c : U4) (b : Bool) (s : State) : (s.setPadOe c b).crit = s.crit := rfl
@[simp] theorem State.setPadOe_busy (c : U4) (b : Bool) (s : State) : (s.setPadOe c b).busy = s.busy := rfl
@[simp] theorem State.setPadOe_trace (c : U4) (b : Bool) (s : State) : (s.setPadOe c b).trace = s.trace := rfl
@[simp] theorem State.setPadOe_responses (c : U4) (b : Bool) (s : State) : (s.setPadOe c b).responses = s.responses := rfl
@[simp] theorem State.setPadOe_host (c : U4) (b : Bool) (s : State) : (s.setPadOe c b).host = s.host := rfl
@[simp] theorem State.setPadOe_env (c : U4) (b : Bool) (s : State) : (s.setPadOe c b).env = s.env := rfl

@[simp] theorem State.setCnt_chans (v : U8) (s : State) : (s.setCnt v).chans = s.chans := rfl
@[simp] theorem State.setCnt_cnt (v : U8) (s : State) : (s.setCnt v).cnt = v := rfl
@[simp] theorem State.setCnt_crit (v : U8) (s : State) : (s.setCnt v).crit = s.crit := rfl
@[simp] theorem State.setCnt_busy (v : U8) (s : State) : (s.setCnt v).busy = s.busy := rfl
@[simp] theorem State.setCnt_trace (v : U8) (s : State) : (s.setCnt v).trace = s.trace := rfl
@[simp] theorem State.setCnt_responses (v : U8) (s : State) : (s.setCnt v).responses = s.responses := rfl
@[simp] theorem State.setCnt_host (v : U8) (s : State) : (s.setCnt v).host = s.host := rfl
@[simp] theorem State.setCnt_env (v : U8) (s : State) : (s.setCnt v).env = s.env := rfl

@[simp] theorem State.log_chans (e : Event) (s : State) : (s.log e).chans = s.chans := rfl
@[simp] theorem State.log_cnt (e : Event) (s : State) : (s.log e).cnt = s.cnt := rfl
@[simp] theorem State.log_crit (e : Event) (s : State) : (s.log e).crit = s.crit := rfl
@[simp] theorem State.log_busy (e : Event) (s : State) : (s.log e).busy = s.busy := rfl
@[simp] theorem State.log_trace (e : Event) (s : State) : (s.log e).trace = s.trace ++ [e] := rfl
@[simp] theorem State.log_responses (e : Event) (s : State) : (s.log e).responses = s.responses := rfl
@[simp] theorem State.log_host (e : Event) (s : State) : (s.log e).host = s.host := rfl
@[simp] theorem State.log_env (e : Event) (s : State) : (s.log e).env = s.env := rfl

@[simp] theorem State.startExecution_chans (s : State) : (s.startExecution).chans = s.chans := rfl
@[simp] theorem State.startExecution_cnt (s : State) : (s.startExecution).cnt = s.cnt := rfl
@[simp] theorem State.startExecution_crit (s : State) : (s.startExecution).crit = s.crit := rfl
@[simp] theorem State.startExecution_busy (s : State) : (s.startExecution).busy = s.busy := rfl
@[simp] theorem State.startExecution_trace (s : State) : (s.startExecution).trace = s.trace := rfl
@[simp] theorem State.startExecution_responses (s : State) : (s.startExecution).responses = s.responses := rfl
@[simp] theorem State.startExecution_host (s : State) : (s.startExecution).host = s.host := rfl
@[simp] theorem State.startExecution_env (s : State) : (s.startExecution).env = { s.env with reads := 0 } := rfl

@[simp] theorem State.countRead_chans (s : State) : (s.countRead).chans = s.chans := rfl
@[simp] theorem State.countRead_cnt (s : State) : (s.countRead).cnt = s.cnt := rfl
@[simp] theorem State.countRead_crit (s : State) : (s.countRead).crit = s.crit := rfl
@[simp] theorem State.countRead_busy (s : State) : (s.countRead).busy = s.busy := rfl
@[simp] theorem State.countRead_trace (s : State) : (s.countRead).trace = s.trace := rfl
@[simp] theorem State.countRead_responses (s : State) : (s.countRead).responses = s.responses := rfl
@[simp] theorem State.countRead_host (s : State) : (s.countRead).host = s.host := rfl
@[simp] theorem State.countRead_env (s : State) : (s.countRead).env = { s.env with reads := s.env.reads + 1 } := rfl

@[simp] theorem State.finishExecution_chans (s : State) : (s.finishExecution).chans = s.chans := rfl
@[simp] theorem State.finishExecution_cnt (s : State) : (s.finishExecution).cnt = s.cnt := rfl
@[simp] theorem State.finishExecution_crit (s : State) : (s.finishExecution).crit = s.crit := rfl
@[simp] theorem State.finishExecution_busy (s : State) : (s.finishExecution).busy = s.busy := rfl
@[simp] theorem State.finishExecution_trace (s : State) : (s.finishExecution).trace = s.trace := rfl
@[simp] theorem State.finishExecution_responses (s : State) : (s.finishExecution).responses = s.responses := rfl
@[simp] theorem State.finishExecution_host (s : State) : (s.finishExecution).host = s.host := rfl
@[simp] theorem State.finishExecution_env (s : State) : (s.finishExecution).env = { script := s.env.script.tail, exec := s.env.exec + 1, reads := 0 } := rfl

@[simp] theorem driveLow_chans (c : U4) (s : State) : (driveLow c s).chans = s.chans.modify (chanIndex c) fun ch => { ch with padOut := false } := rfl
@[simp] theorem driveLow_cnt (c : U4) (s : State) : (driveLow c s).cnt = s.cnt := rfl
@[simp] theorem driveLow_crit (c : U4) (s : State) : (driveLow c s).crit = s.crit := rfl
@[simp] theorem driveLow_busy (c : U4) (s : State) : (driveLow c s).busy = s.busy := rfl
@[simp] theorem driveLow_trace (c : U4) (s : State) : (driveLow c s).trace = s.trace ++ [.driveLow c] := rfl
@[simp] theorem driveLow_responses (c : U4) (s : State) : (driveLow c s).responses = s.responses := rfl
@[simp] theorem driveLow_host (c : U4) (s : State) : (driveLow c s).host = s.host := rfl
@[simp] theorem driveLow_env (c : U4) (s : State) : (driveLow c s).env = s.env := rfl

@[simp] theorem configureInput_chans (c : U4) (s : State) : (configureInput c s).chans = s.chans.modify (chanIndex c) fun ch => { ch with padOe := false } := rfl
@[simp] theorem configureInput_cnt (c : U4) (s : State) : (configureInput c s).cnt = s.cnt := rfl
@[simp] theorem configureInput_crit (c : U4) (s : State) : (configureInput c s).crit = s.crit := rfl
@[simp] theorem configureInput_busy (c : U4) (s : State) : (configureInput c s).busy = s.busy := rfl
@[simp] theorem configureInput_trace (c : U4) (s : State) : (configureInput c s).trace = s.trace ++ [.cfgIn c] := rfl
@[simp] theorem configureInput_responses (c : U4) (s : State) : (configureInput c s).responses = s.responses := rfl
@[simp] theorem configureInput_host (c : U4) (s : State) : (configureInput c s).host = s.host := rfl
@[simp] theorem configureInput_env (c : U4) (s : State) : (configureInput c s).env = s.env := rfl

@[simp] theorem configureOutput_chans (c : U4) (s : State) : (configureOutput c s).chans = s.chans.modify (chanIndex c) fun ch => { ch with padOe := true } := rfl
@[simp] theorem configureOutput_cnt (c : U4) (s : State) : (configureOutput c s).cnt = s.cnt := rfl
@[simp] theorem configureOutput_crit (c : U4) (s : State) : (configureOutput c s).crit = s.crit := rfl
@[simp] theorem configureOutput_busy (c : U4) (s : State) : (configureOutput c s).busy = s.busy := rfl
@[simp] theorem configureOutput_trace (c : U4) (s : State) : (configureOutput c s).trace = s.trace ++ [.cfgOut c] := rfl
@[simp] theorem configureOutput_responses (c : U4) (s : State) : (configureOutput c s).responses = s.responses := rfl
@[simp] theorem configureOutput_host (c : U4) (s : State) : (configureOutput c s).host = s.host := rfl
@[simp] theorem configureOutput_env (c : U4) (s : State) : (configureOutput c s).env = s.env := rfl

@[simp] theorem critEnter_chans (s : State) : (critEnter s).chans = s.chans := rfl
@[simp] theorem critEnter_cnt (s : State) : (critEnter s).cnt = s.cnt := rfl
@[simp] theorem critEnter_crit (s : State) : (critEnter s).crit = true := rfl
@[simp] theorem critEnter_busy (s : State) : (critEnter s).busy = s.busy := rfl
@[simp] theorem critEnter_trace (s : State) : (critEnter s).trace = s.trace ++ [.critEnter] := rfl
@[simp] theorem critEnter_responses (s : State) : (critEnter s).responses = s.responses := rfl
@[simp] theorem critEnter_host (s : State) : (critEnter s).host = s.host := rfl
@[simp] theorem critEnter_env (s : State) : (critEnter s).env = s.env := rfl

@[simp] theorem critLeave_chans (s : State) : (critLeave s).chans = s.chans := rfl
@[simp] theorem critLeave_cnt (s : State) : (critLeave s).cnt = s.cnt := rfl
@[simp] theorem critLeave_crit (s : State) : (critLeave s).crit = false := rfl
@[simp] theorem critLeave_busy (s : State) : (critLeave s).busy = s.busy := rfl
@[simp] theorem critLeave_trace (s : State) : (critLeave s).trace = s.trace ++ [.critLeave] := rfl
@[simp] theorem critLeave_responses (s : State) : (critLeave s).responses = s.responses := rfl
@[simp] theorem critLeave_host (s : State) : (critLeave s).host = s.host := rfl
@[simp] theorem critLeave_env (s : State) : (critLeave s).env = s.env := rfl

@[simp] theorem accept_chans (s : State) : (accept s).chans = s.chans := rfl
@[simp] theorem accept_cnt (s : State) : (accept s).cnt = s.cnt := rfl
@[simp] theorem accept_crit (s : State) : (accept s).crit = s.crit := rfl
@[simp] theorem accept_busy (s : State) : (accept s).busy = true := rfl
@[simp] theorem accept_trace (s : State) : (accept s).trace = s.trace := rfl
@[simp] theorem accept_responses (s : State) : (accept s).responses = s.responses := rfl
@[simp] theorem accept_host (s : State) : (accept s).host = s.host := rfl
@[simp] theorem accept_env (s : State) : (accept s).env = s.env := rfl

@[simp] theorem answer_chans (r : Response) (s : State) : (answer r s).chans = s.chans := rfl
@[simp] theorem answer_cnt (r : Response) (s : State) : (answer r s).cnt = s.cnt := rfl
@[simp] theorem answer_crit (r : Response) (s : State) : (answer r s).crit = s.crit := rfl
@[simp] theorem answer_busy (r : Response) (s : State) : (answer r s).busy = false := rfl
@[simp] theorem answer_trace (r : Response) (s : State) : (answer r s).trace = s.trace := rfl
@[simp] theorem answer_responses (r : Response) (s : State) : (answer r s).responses = s.responses ++ [r] := rfl
@[simp] theorem answer_host (r : Response) (s : State) : (answer r s).host = s.host := rfl
@[simp] theorem answer_env (r : Response) (s : State) : (answer r s).env = s.env := rfl

@[simp] theorem respond_chans (v : U16) (s : State) : (respond v s).chans = s.chans := rfl
@[simp] theorem respond_cnt (v : U16) (s : State) : (respond v s).cnt = s.cnt := rfl
@[simp] theorem respond_crit (v : U16) (s : State) : (respond v s).crit = s.crit := rfl
@[simp] theorem respond_busy (v : U16) (s : State) : (respond v s).busy = false := rfl
@[simp] theorem respond_trace (v : U16) (s : State) : (respond v s).trace = s.trace := rfl
@[simp] theorem respond_responses (v : U16) (s : State) : (respond v s).responses = s.responses ++ [{ st := statusOk, val := v }] := rfl
@[simp] theorem respond_host (v : U16) (s : State) : (respond v s).host = s.host := rfl
@[simp] theorem respond_env (v : U16) (s : State) : (respond v s).env = s.env := rfl

@[simp] theorem reject_chans (r : Reject) (s : State) : (reject r s).chans = s.chans := rfl
@[simp] theorem reject_cnt (r : Reject) (s : State) : (reject r s).cnt = s.cnt := rfl
@[simp] theorem reject_crit (r : Reject) (s : State) : (reject r s).crit = s.crit := rfl
@[simp] theorem reject_busy (r : Reject) (s : State) : (reject r s).busy = false := rfl
@[simp] theorem reject_trace (r : Reject) (s : State) : (reject r s).trace = s.trace := rfl
@[simp] theorem reject_responses (r : Reject) (s : State) : (reject r s).responses = s.responses ++ [{ st := Reject.code r, val := 0 }] := rfl
@[simp] theorem reject_host (r : Reject) (s : State) : (reject r s).host = s.host := rfl
@[simp] theorem reject_env (r : Reject) (s : State) : (reject r s).env = s.env := rfl

@[simp] theorem hostSetOut_chans (c : U4) (b : Bool) (s : State) : (hostSetOut c b s).chans = s.chans.modify (chanIndex c) fun ch => { ch with padOut := b } := rfl
@[simp] theorem hostSetOut_cnt (c : U4) (b : Bool) (s : State) : (hostSetOut c b s).cnt = s.cnt := rfl
@[simp] theorem hostSetOut_crit (c : U4) (b : Bool) (s : State) : (hostSetOut c b s).crit = s.crit := rfl
@[simp] theorem hostSetOut_busy (c : U4) (b : Bool) (s : State) : (hostSetOut c b s).busy = s.busy := rfl
@[simp] theorem hostSetOut_trace (c : U4) (b : Bool) (s : State) : (hostSetOut c b s).trace = s.trace ++ [.hostSetOut c b] := rfl
@[simp] theorem hostSetOut_responses (c : U4) (b : Bool) (s : State) : (hostSetOut c b s).responses = s.responses := rfl
@[simp] theorem hostSetOut_host (c : U4) (b : Bool) (s : State) : (hostSetOut c b s).host = s.host := rfl
@[simp] theorem hostSetOut_env (c : U4) (b : Bool) (s : State) : (hostSetOut c b s).env = s.env := rfl

@[simp] theorem readLevel_bit (c : U4) (s : State) : (readLevel c s).1 = s.nextLevel c := rfl

@[simp] theorem readLevel_state (c : U4) (s : State) :
    (readLevel c s).2 = s.countRead.log (.read c (s.nextLevel c)) := rfl

end Sys2Proof.Machine
end

