-- ==== Sys2Proof/Laws/Ops.lean ====
section
/-!
SUPPORT. What the shared operations do to the registers, pads and straps of a channel, to the number of channels and to the
environment: each said once, so that later proofs cite it.
-/

namespace Sys2Proof.Machine

/-! ### Channels as records -/

theorem chanIndex_inj {c d : U4} : chanIndex c = chanIndex d ↔ c = d := by
  simp [chanIndex, BitVec.toNat_inj]

/-- A channel's record after a change to channel `c`. -/
theorem State.updChan_chans_get (c : U4) (f : Channel → Channel) (s : State) (k : Nat) :
    (s.updChan c f).chans[k]? = if chanIndex c = k then s.chans[k]?.map f else s.chans[k]? := by
  simp only [State.updChan_chans, List.getElem?_modify]
  split <;> simp

@[simp] theorem State.updChan_nch (c : U4) (f : Channel → Channel) (s : State) :
    (s.updChan c f).nch = s.nch := by
  simp [State.nch]

/-- A channel below NCH has a record. -/
theorem State.chan_of_lt {s : State} {c : U4} (h : c.toNat < s.nch) :
    ∃ ch, s.chans[chanIndex c]? = some ch :=
  ⟨_, List.getElem?_eq_getElem h⟩

/-! ### The registers depend on the channel records alone -/

theorem State.ref_congr {s t : State} {c : U4} (h : t.chans[chanIndex c]? = s.chans[chanIndex c]?) :
    t.ref c = s.ref c := by
  simp [State.ref, h]

theorem State.ref_of_chan {s : State} {c : U4} {ch : Channel} (h : s.chans[chanIndex c]? = some ch) :
    s.ref c = ch.ref := by
  simp [State.ref, h]

theorem State.cfg_congr {s t : State} {c : U4} (h : t.chans[chanIndex c]? = s.chans[chanIndex c]?) :
    t.cfg c = s.cfg c := by
  simp [State.cfg, h]

theorem State.cfg_of_chan {s : State} {c : U4} {ch : Channel} (h : s.chans[chanIndex c]? = some ch) :
    s.cfg c = ch.cfg := by
  simp [State.cfg, h]

theorem State.padOut_congr {s t : State} {c : U4} (h : t.chans[chanIndex c]? = s.chans[chanIndex c]?) :
    t.padOut c = s.padOut c := by
  simp [State.padOut, h]

theorem State.padOut_of_chan {s : State} {c : U4} {ch : Channel} (h : s.chans[chanIndex c]? = some ch) :
    s.padOut c = ch.padOut := by
  simp [State.padOut, h]

theorem State.padOe_congr {s t : State} {c : U4} (h : t.chans[chanIndex c]? = s.chans[chanIndex c]?) :
    t.padOe c = s.padOe c := by
  simp [State.padOe, h]

theorem State.padOe_of_chan {s : State} {c : U4} {ch : Channel} (h : s.chans[chanIndex c]? = some ch) :
    s.padOe c = ch.padOe := by
  simp [State.padOe, h]

/-! ### Reading after writing -/

/-- A read after a write: the written value on channel `c`, the old value elsewhere. -/
theorem State.setRef_ref {s : State} {c : U4} (h : c.toNat < s.nch) (v : U16) (d : U4) :
    (s.setRef c v).ref d = if d = c then v else s.ref d := by
  obtain ⟨ch, hc⟩ := State.chan_of_lt h
  by_cases hd : d = c
  · subst hd
    simp [State.ref, State.setRef, hc]
  · have hk : ¬ chanIndex c = chanIndex d := fun e => hd (chanIndex_inj.mp e).symm
    simp [State.ref, State.setRef, hk, hd]

@[simp] theorem State.setRef_cfg (c : U4) (v : U16) (s : State) (d : U4) :
    (s.setRef c v).cfg d = s.cfg d := by
  by_cases hk : chanIndex c = chanIndex d
  · cases hc : s.chans[chanIndex d]? <;> simp [State.cfg, State.setRef, hk, hc]
  · simp [State.cfg, State.setRef, hk]

@[simp] theorem State.setRef_padOut (c : U4) (v : U16) (s : State) (d : U4) :
    (s.setRef c v).padOut d = s.padOut d := by
  by_cases hk : chanIndex c = chanIndex d
  · cases hc : s.chans[chanIndex d]? <;> simp [State.padOut, State.setRef, hk, hc]
  · simp [State.padOut, State.setRef, hk]

@[simp] theorem State.setRef_padOe (c : U4) (v : U16) (s : State) (d : U4) :
    (s.setRef c v).padOe d = s.padOe d := by
  by_cases hk : chanIndex c = chanIndex d
  · cases hc : s.chans[chanIndex d]? <;> simp [State.padOe, State.setRef, hk, hc]
  · simp [State.padOe, State.setRef, hk]

@[simp] theorem State.setPadOut_ref (c : U4) (b : Bool) (s : State) (d : U4) :
    (s.setPadOut c b).ref d = s.ref d := by
  by_cases hk : chanIndex c = chanIndex d
  · cases hc : s.chans[chanIndex d]? <;> simp [State.ref, State.setPadOut, hk, hc]
  · simp [State.ref, State.setPadOut, hk]

@[simp] theorem State.setPadOut_cfg (c : U4) (b : Bool) (s : State) (d : U4) :
    (s.setPadOut c b).cfg d = s.cfg d := by
  by_cases hk : chanIndex c = chanIndex d
  · cases hc : s.chans[chanIndex d]? <;> simp [State.cfg, State.setPadOut, hk, hc]
  · simp [State.cfg, State.setPadOut, hk]

/-- A read after a write: the written value on channel `c`, the old value elsewhere. -/
theorem State.setPadOut_padOut {s : State} {c : U4} (h : c.toNat < s.nch) (b : Bool) (d : U4) :
    (s.setPadOut c b).padOut d = if d = c then b else s.padOut d := by
  obtain ⟨ch, hc⟩ := State.chan_of_lt h
  by_cases hd : d = c
  · subst hd
    simp [State.padOut, State.setPadOut, hc]
  · have hk : ¬ chanIndex c = chanIndex d := fun e => hd (chanIndex_inj.mp e).symm
    simp [State.padOut, State.setPadOut, hk, hd]

@[simp] theorem State.setPadOut_padOe (c : U4) (b : Bool) (s : State) (d : U4) :
    (s.setPadOut c b).padOe d = s.padOe d := by
  by_cases hk : chanIndex c = chanIndex d
  · cases hc : s.chans[chanIndex d]? <;> simp [State.padOe, State.setPadOut, hk, hc]
  · simp [State.padOe, State.setPadOut, hk]

@[simp] theorem State.setPadOe_ref (c : U4) (b : Bool) (s : State) (d : U4) :
    (s.setPadOe c b).ref d = s.ref d := by
  by_cases hk : chanIndex c = chanIndex d
  · cases hc : s.chans[chanIndex d]? <;> simp [State.ref, State.setPadOe, hk, hc]
  · simp [State.ref, State.setPadOe, hk]

@[simp] theorem State.setPadOe_cfg (c : U4) (b : Bool) (s : State) (d : U4) :
    (s.setPadOe c b).cfg d = s.cfg d := by
  by_cases hk : chanIndex c = chanIndex d
  · cases hc : s.chans[chanIndex d]? <;> simp [State.cfg, State.setPadOe, hk, hc]
  · simp [State.cfg, State.setPadOe, hk]

@[simp] theorem State.setPadOe_padOut (c : U4) (b : Bool) (s : State) (d : U4) :
    (s.setPadOe c b).padOut d = s.padOut d := by
  by_cases hk : chanIndex c = chanIndex d
  · cases hc : s.chans[chanIndex d]? <;> simp [State.padOut, State.setPadOe, hk, hc]
  · simp [State.padOut, State.setPadOe, hk]

/-- A read after a write: the written value on channel `c`, the old value elsewhere. -/
theorem State.setPadOe_padOe {s : State} {c : U4} (h : c.toNat < s.nch) (b : Bool) (d : U4) :
    (s.setPadOe c b).padOe d = if d = c then b else s.padOe d := by
  obtain ⟨ch, hc⟩ := State.chan_of_lt h
  by_cases hd : d = c
  · subst hd
    simp [State.padOe, State.setPadOe, hc]
  · have hk : ¬ chanIndex c = chanIndex d := fun e => hd (chanIndex_inj.mp e).symm
    simp [State.padOe, State.setPadOe, hk, hd]

/-! ### Operations that leave every channel alone -/

@[simp] theorem State.setCnt_ref (v : U8) (s : State) (d : U4) : (s.setCnt v).ref d = s.ref d := rfl
@[simp] theorem State.setCnt_cfg (v : U8) (s : State) (d : U4) : (s.setCnt v).cfg d = s.cfg d := rfl
@[simp] theorem State.setCnt_padOut (v : U8) (s : State) (d : U4) : (s.setCnt v).padOut d = s.padOut d := rfl
@[simp] theorem State.setCnt_padOe (v : U8) (s : State) (d : U4) : (s.setCnt v).padOe d = s.padOe d := rfl
@[simp] theorem State.setCnt_nch (v : U8) (s : State) : (s.setCnt v).nch = s.nch := rfl

@[simp] theorem State.log_ref (e : Event) (s : State) (d : U4) : (s.log e).ref d = s.ref d := rfl
@[simp] theorem State.log_cfg (e : Event) (s : State) (d : U4) : (s.log e).cfg d = s.cfg d := rfl
@[simp] theorem State.log_padOut (e : Event) (s : State) (d : U4) : (s.log e).padOut d = s.padOut d := rfl
@[simp] theorem State.log_padOe (e : Event) (s : State) (d : U4) : (s.log e).padOe d = s.padOe d := rfl
@[simp] theorem State.log_nch (e : Event) (s : State) : (s.log e).nch = s.nch := rfl

@[simp] theorem State.startExecution_ref (s : State) (d : U4) : (s.startExecution).ref d = s.ref d := rfl
@[simp] theorem State.startExecution_cfg (s : State) (d : U4) : (s.startExecution).cfg d = s.cfg d := rfl
@[simp] theorem State.startExecution_padOut (s : State) (d : U4) : (s.startExecution).padOut d = s.padOut d := rfl
@[simp] theorem State.startExecution_padOe (s : State) (d : U4) : (s.startExecution).padOe d = s.padOe d := rfl
@[simp] theorem State.startExecution_nch (s : State) : (s.startExecution).nch = s.nch := rfl

@[simp] theorem State.countRead_ref (s : State) (d : U4) : (s.countRead).ref d = s.ref d := rfl
@[simp] theorem State.countRead_cfg (s : State) (d : U4) : (s.countRead).cfg d = s.cfg d := rfl
@[simp] theorem State.countRead_padOut (s : State) (d : U4) : (s.countRead).padOut d = s.padOut d := rfl
@[simp] theorem State.countRead_padOe (s : State) (d : U4) : (s.countRead).padOe d = s.padOe d := rfl
@[simp] theorem State.countRead_nch (s : State) : (s.countRead).nch = s.nch := rfl

@[simp] theorem State.finishExecution_ref (s : State) (d : U4) : (s.finishExecution).ref d = s.ref d := rfl
@[simp] theorem State.finishExecution_cfg (s : State) (d : U4) : (s.finishExecution).cfg d = s.cfg d := rfl
@[simp] theorem State.finishExecution_padOut (s : State) (d : U4) : (s.finishExecution).padOut d = s.padOut d := rfl
@[simp] theorem State.finishExecution_padOe (s : State) (d : U4) : (s.finishExecution).padOe d = s.padOe d := rfl
@[simp] theorem State.finishExecution_nch (s : State) : (s.finishExecution).nch = s.nch := rfl

@[simp] theorem critEnter_ref (s : State) (d : U4) : (critEnter s).ref d = s.ref d := rfl
@[simp] theorem critEnter_cfg (s : State) (d : U4) : (critEnter s).cfg d = s.cfg d := rfl
@[simp] theorem critEnter_padOut (s : State) (d : U4) : (critEnter s).padOut d = s.padOut d := rfl
@[simp] theorem critEnter_padOe (s : State) (d : U4) : (critEnter s).padOe d = s.padOe d := rfl
@[simp] theorem critEnter_nch (s : State) : (critEnter s).nch = s.nch := rfl

@[simp] theorem critLeave_ref (s : State) (d : U4) : (critLeave s).ref d = s.ref d := rfl
@[simp] theorem critLeave_cfg (s : State) (d : U4) : (critLeave s).cfg d = s.cfg d := rfl
@[simp] theorem critLeave_padOut (s : State) (d : U4) : (critLeave s).padOut d = s.padOut d := rfl
@[simp] theorem critLeave_padOe (s : State) (d : U4) : (critLeave s).padOe d = s.padOe d := rfl
@[simp] theorem critLeave_nch (s : State) : (critLeave s).nch = s.nch := rfl

@[simp] theorem accept_ref (s : State) (d : U4) : (accept s).ref d = s.ref d := rfl
@[simp] theorem accept_cfg (s : State) (d : U4) : (accept s).cfg d = s.cfg d := rfl
@[simp] theorem accept_padOut (s : State) (d : U4) : (accept s).padOut d = s.padOut d := rfl
@[simp] theorem accept_padOe (s : State) (d : U4) : (accept s).padOe d = s.padOe d := rfl
@[simp] theorem accept_nch (s : State) : (accept s).nch = s.nch := rfl

@[simp] theorem answer_ref (r : Response) (s : State) (d : U4) : (answer r s).ref d = s.ref d := rfl
@[simp] theorem answer_cfg (r : Response) (s : State) (d : U4) : (answer r s).cfg d = s.cfg d := rfl
@[simp] theorem answer_padOut (r : Response) (s : State) (d : U4) : (answer r s).padOut d = s.padOut d := rfl
@[simp] theorem answer_padOe (r : Response) (s : State) (d : U4) : (answer r s).padOe d = s.padOe d := rfl
@[simp] theorem answer_nch (r : Response) (s : State) : (answer r s).nch = s.nch := rfl

@[simp] theorem respond_ref (v : U16) (s : State) (d : U4) : (respond v s).ref d = s.ref d := rfl
@[simp] theorem respond_cfg (v : U16) (s : State) (d : U4) : (respond v s).cfg d = s.cfg d := rfl
@[simp] theorem respond_padOut (v : U16) (s : State) (d : U4) : (respond v s).padOut d = s.padOut d := rfl
@[simp] theorem respond_padOe (v : U16) (s : State) (d : U4) : (respond v s).padOe d = s.padOe d := rfl
@[simp] theorem respond_nch (v : U16) (s : State) : (respond v s).nch = s.nch := rfl

@[simp] theorem reject_ref (r : Reject) (s : State) (d : U4) : (reject r s).ref d = s.ref d := rfl
@[simp] theorem reject_cfg (r : Reject) (s : State) (d : U4) : (reject r s).cfg d = s.cfg d := rfl
@[simp] theorem reject_padOut (r : Reject) (s : State) (d : U4) : (reject r s).padOut d = s.padOut d := rfl
@[simp] theorem reject_padOe (r : Reject) (s : State) (d : U4) : (reject r s).padOe d = s.padOe d := rfl
@[simp] theorem reject_nch (r : Reject) (s : State) : (reject r s).nch = s.nch := rfl

@[simp] theorem State.setRef_nch (c : U4) (v : U16) (s : State) : (s.setRef c v).nch = s.nch := by
  simp [State.nch]

@[simp] theorem State.setPadOut_nch (c : U4) (b : Bool) (s : State) : (s.setPadOut c b).nch = s.nch := by
  simp [State.nch]

@[simp] theorem State.setPadOe_nch (c : U4) (b : Bool) (s : State) : (s.setPadOe c b).nch = s.nch := by
  simp [State.nch]

@[simp] theorem driveLow_nch (c : U4) (s : State) : (driveLow c s).nch = s.nch := by
  simp [State.nch]

@[simp] theorem configureInput_nch (c : U4) (s : State) : (configureInput c s).nch = s.nch := by
  simp [State.nch]

@[simp] theorem configureOutput_nch (c : U4) (s : State) : (configureOutput c s).nch = s.nch := by
  simp [State.nch]

@[simp] theorem hostSetOut_nch (c : U4) (b : Bool) (s : State) : (hostSetOut c b s).nch = s.nch := by
  simp [State.nch]

/-! ### The environment -/

/-- Finishing an execution moves the numbering of the coming ones on by one. -/
theorem State.finishExecution_levelOf (s : State) (c : U4) (m i : Nat) :
    s.finishExecution.env.levelOf c (m + 1) i = s.env.levelOf c (m + 2) i := by
  simp [Env.levelOf, Nat.add_right_comm, Nat.add_assoc]

/-- The number of reads made so far does not change what the environment answers. -/
@[simp] theorem Env.levelOf_reads (e : Env) (r : Nat) (c : U4) (m i : Nat) :
    ({ e with reads := r } : Env).levelOf c m i = e.levelOf c m i := rfl

/-! ### Responses -/

@[simp] theorem statusOk_eq : statusOk = 0 := rfl

/-- VAL of SCAN in numbers (R89). -/
theorem scanValue_toNat (t : Bool) (f : U8) : (scanValue t f).toNat = f.toNat + if t then 256 else 0 := by
  have := f.isLt
  simp only [scanValue, BitVec.toNat_append]
  rw [← Nat.shiftLeft_add_eq_or_of_lt this]
  cases t <;> simp [Nat.shiftLeft_eq]
  omega

/-- VAL of EVAL (R89). -/
theorem evalValue_eq (t : Bool) : evalValue t = if t then 1 else 0 := by
  cases t <;> rfl

/-! ### Accepting and rejecting -/

/-- A command is well formed exactly when its channel exists and its count is legal. -/
theorem Instr.wf_iff (nch : Nat) (i : Instr) :
    i.wf nch = true ↔ i.chan.toNat < nch ∧ i.countLegal = true := by
  simp [Instr.wf]

/-- A command with legal operands is executed. -/
theorem whenLegal_of_wf {i : Instr} {s : State} (k : State → State) (h : i.wf s.nch = true) :
    whenLegal i k s = k (accept s) := by
  have h1 : i.chan.toNat < s.nch ∧ i.countLegal = true := by simpa [Instr.wf] using h
  have h2 : ¬ s.nch ≤ i.chan.toNat := by omega
  simp [whenLegal, Instr.operandReject, h1.2, h2]

/-- A command with illegal operands is rejected, with the reason of the first check of R82 that fails. -/
theorem whenLegal_of_reject {i : Instr} {s : State} {r : Reject} (k : State → State)
    (h : i.operandReject s.nch = some r) : whenLegal i k s = reject r (accept s) := by
  simp [whenLegal, h]

/-- The operands are rejected exactly when the command is not well formed. -/
theorem Instr.operandReject_none_iff (nch : Nat) (i : Instr) :
    i.operandReject nch = none ↔ i.wf nch = true := by
  unfold Instr.operandReject Instr.wf
  by_cases h : nch ≤ i.chan.toNat
  · simp [h]
  · have h' : i.chan.toNat < nch := by omega
    cases hc : i.countLegal <;> simp [h, h']

/-- Rejecting an accepted command on an idle block changes nothing but the list of responses (R192). -/
theorem reject_accept {s : State} (r : Reject) (h : s.busy = false) :
    reject r (accept s) = { s with responses := s.responses ++ [{ st := Reject.code r, val := 0 }] } := by
  cases s
  simp_all [reject, accept, answer]

end Sys2Proof.Machine
end

