-- ==== Sys2Proof/Laws/Sampler.lean ====
section
/-!
SUPPORT. What the counting loop and `measureOnce` do (spec/40_sampler.md R111, R112, R114, R115), said once: the sample is the
number of low reads before the first high one, at most 255, and the state after is one record.
-/

namespace Sys2Proof.Machine

/-! ### The counting loop -/

/-- One iteration whose read is high leaves the loop with CNT unchanged. -/
theorem countTick_high {c : U4} {s : State} (h : s.nextLevel c = true) :
    countTick c s = (true, s.countRead.log (.read c true)) := by
  simp [countTick, h]

/-- One iteration whose read is low increments CNT and leaves the loop when it has wrapped. -/
theorem countTick_low {c : U4} {s : State} (h : s.nextLevel c = false) :
    countTick c s =
      (decide (s.cnt + 1 = 0), (s.countRead.log (.read c false)).setCnt (s.cnt + 1)) := by
  simp [countTick, h, add8]

/-- The loop from CNT = `j + 1`, when `n` low reads and then a high one follow. -/
theorem countLoop_high (c : U4) (n : Nat) :
    ∀ (fuel j : Nat) (s : State), n < fuel → j + n < 255 → s.env.reads = j → s.cnt.toNat = j + 1 →
      (∀ i, j < i → i ≤ j + n → s.env.levelOf c 1 i = false) →
      s.env.levelOf c 1 (j + n + 1) = true →
      countLoop c fuel s =
        { s with
          cnt := BitVec.ofNat 8 (j + n + 1)
          trace := s.trace ++ (List.replicate n (.read c false) ++ [.read c true])
          env := { s.env with reads := j + n + 1 } } := by
  induction n with
  | zero =>
    intro fuel j s hf hj hr hc _ hhigh
    obtain ⟨fuel, rfl⟩ : ∃ k, fuel = k + 1 := ⟨fuel - 1, by omega⟩
    have hn : s.nextLevel c = true := by simpa [State.nextLevel, hr] using hhigh
    have hcnt : s.cnt = BitVec.ofNat 8 (j + 1) := by
      rw [← hc, BitVec.ofNat_toNat, BitVec.setWidth_eq]
    simp only [countLoop, countTick_high hn]
    cases s
    simp_all [State.log, State.countRead]
  | succ n ih =>
    intro fuel j s hf hj hr hc hlow hhigh
    obtain ⟨fuel, rfl⟩ : ∃ k, fuel = k + 1 := ⟨fuel - 1, by omega⟩
    have hn : s.nextLevel c = false := by
      simpa [State.nextLevel, hr] using hlow (j + 1) (by omega) (by omega)
    have hcnt : (s.cnt + 1).toNat = j + 2 := by
      rw [BitVec.toNat_add, hc]
      have : (1 : U8).toNat = 1 := rfl
      omega
    have hne : ¬ s.cnt + 1 = 0 := fun e => by
      rw [e] at hcnt
      simp at hcnt
    simp only [countLoop, countTick_low hn, hne, decide_false]
    rw [ih fuel (j + 1) _ (by omega) (by omega) (by simp [hr]) (by simpa using hcnt)]
    · simp [List.replicate_succ, Nat.add_comm, Nat.add_left_comm, State.setCnt, State.log,
        State.countRead]
    · intro i h1 h2
      simpa using hlow i (by omega) (by omega)
    · simpa [Nat.add_assoc, Nat.add_comm, Nat.add_left_comm] using hhigh

/-- The loop from CNT = `j + 1`, when all reads up to number 255 are low. -/
theorem countLoop_wrap (c : U4) (n : Nat) :
    ∀ (fuel j : Nat) (s : State), n < fuel → j + n = 254 → s.env.reads = j → s.cnt.toNat = j + 1 →
      (∀ i, j < i → i ≤ 255 → s.env.levelOf c 1 i = false) →
      countLoop c fuel s =
        { s with
          cnt := 0
          trace := s.trace ++ List.replicate (n + 1) (.read c false)
          env := { s.env with reads := 255 } } := by
  induction n with
  | zero =>
    intro fuel j s hf hj hr hc hlow
    obtain ⟨fuel, rfl⟩ : ∃ k, fuel = k + 1 := ⟨fuel - 1, by omega⟩
    have hn : s.nextLevel c = false := by
      simpa [State.nextLevel, hr] using hlow (j + 1) (by omega) (by omega)
    have hz : s.cnt + 1 = 0 := by
      apply BitVec.eq_of_toNat_eq
      rw [BitVec.toNat_add, hc]
      have : (1 : U8).toNat = 1 := rfl
      have : (0 : U8).toNat = 0 := rfl
      omega
    simp only [countLoop, countTick_low hn, hz, decide_true]
    have hj' : j + 1 = 255 := by omega
    simp [State.setCnt, State.log, State.countRead, hr, hj']
  | succ n ih =>
    intro fuel j s hf hj hr hc hlow
    obtain ⟨fuel, rfl⟩ : ∃ k, fuel = k + 1 := ⟨fuel - 1, by omega⟩
    have hn : s.nextLevel c = false := by
      simpa [State.nextLevel, hr] using hlow (j + 1) (by omega) (by omega)
    have hcnt : (s.cnt + 1).toNat = j + 2 := by
      rw [BitVec.toNat_add, hc]
      have : (1 : U8).toNat = 1 := rfl
      omega
    have hne : ¬ s.cnt + 1 = 0 := fun e => by
      rw [e] at hcnt
      simp at hcnt
    simp only [countLoop, countTick_low hn, hne, decide_false]
    rw [ih fuel (j + 1) _ (by omega) (by omega) (by simp [hr]) (by simpa using hcnt)]
    · simp [List.replicate_succ, State.setCnt, State.log, State.countRead]
    · intro i h1 h2
      simpa using hlow i (by omega) h2

/-! ### measureOnce -/

/-- How many low reads the `m`-th execution from here makes before its first high one, at most 255. -/
def Env.lows (e : Env) (c : U4) (m : Nat) : Nat :=
  ((List.range maxReads).takeWhile fun i => !e.levelOf c m (i + 1)).length

/-- The environment once the coming execution is over. -/
def Env.next (e : Env) : Env := { script := e.script.tail, exec := e.exec + 1, reads := 0 }

/-- The environment once `n` executions are over. -/
def Env.later (e : Env) : Nat → Env
  | 0 => e
  | n + 1 => (e.next).later n

/-- The events of the reads of the coming execution (R114). -/
def Env.readEvents (e : Env) (c : U4) : List Event :=
  List.replicate (e.lows c 1) (.read c false) ++ if e.lows c 1 < 255 then [.read c true] else []

/-- The events of the coming execution (R114). -/
def Env.measureEvents (e : Env) (c : U4) : List Event :=
  [.driveLow c, .critEnter, .cfgIn c] ++ e.readEvents c ++ [.critLeave, .cfgOut c]

/-- The pad of a channel after a measurement (R115): driven low. -/
def Channel.drivenLow (ch : Channel) : Channel := { ch with padOut := false, padOe := true }

theorem Env.sample_eq (e : Env) (c : U4) (m : Nat) : e.sample c m = BitVec.ofNat 8 (e.lows c m) := rfl

theorem Env.lows_le (e : Env) (c : U4) (m : Nat) : e.lows c m ≤ 255 := by
  simpa [Env.lows, maxReads] using
    (List.takeWhile_sublist (l := List.range maxReads) fun i => !e.levelOf c m (i + 1)).length_le

/-- The reads before the first high one are low. -/
theorem Env.level_of_lt_lows {e : Env} {c : U4} {m i : Nat} (h1 : 1 ≤ i) (h2 : i ≤ e.lows c m) :
    e.levelOf c m i = false := by
  have hlt : i - 1 < ((List.range maxReads).takeWhile fun i => !e.levelOf c m (i + 1)).length := by
    have : i ≤ ((List.range maxReads).takeWhile fun i => !e.levelOf c m (i + 1)).length := h2
    omega
  have hget : ((List.range maxReads).takeWhile fun i => !e.levelOf c m (i + 1))[i - 1] = i - 1 := by
    have hp := List.takeWhile_prefix (l := List.range maxReads) fun i => !e.levelOf c m (i + 1)
    rw [List.IsPrefix.getElem hp hlt, List.getElem_range]
  have hall := List.mem_takeWhile_imp (List.getElem_mem hlt)
  rw [hget] at hall
  have : i - 1 + 1 = i := by omega
  simpa [this] using hall

/-- The first read after them is high. -/
theorem Env.level_at_lows {e : Env} {c : U4} {m : Nat} (h : e.lows c m < 255) :
    e.levelOf c m (e.lows c m + 1) = true := by
  by_contra hne
  have hp := List.takeWhile_append_dropWhile (l := List.range maxReads) (p := fun i => !e.levelOf c m (i + 1))
  have hlen := congrArg List.length hp
  simp only [List.length_append, List.length_range] at hlen
  have hd : ((List.range maxReads).dropWhile fun i => !e.levelOf c m (i + 1)) ≠ [] := by
    intro hnil
    rw [hnil] at hlen
    have : e.lows c m = 255 := by simpa [Env.lows, maxReads] using hlen
    omega
  have hhead := List.head_dropWhile_not (fun i => !e.levelOf c m (i + 1)) hd
  have hidx : ((List.range maxReads).dropWhile fun i => !e.levelOf c m (i + 1)).head hd = e.lows c m := by
    have hrange : e.lows c m < (List.range maxReads).length := by simpa [maxReads] using h
    have h3 : (List.range maxReads)[e.lows c m]? = some (e.lows c m) := by
      rw [List.getElem?_eq_getElem hrange, List.getElem_range]
    rw [← hp, List.getElem?_append_right (by simp [Env.lows])] at h3
    simp only [Env.lows, Nat.sub_self] at h3
    rw [← List.head?_eq_getElem?, List.head?_eq_some_head hd] at h3
    exact Option.some.inj h3
  rw [hidx] at hhead
  simp_all

/-- The first high read, where there is one by read 255, decides the number of low reads (R112). -/
theorem Env.lows_of_first_high {e : Env} {c : U4} {m k : Nat} (h1 : 1 ≤ k) (h2 : k ≤ 255)
    (hk : e.levelOf c m k = true) (hl : ∀ i, 1 ≤ i → i < k → e.levelOf c m i = false) :
    e.lows c m = k - 1 := by
  by_contra hne
  rcases Nat.lt_or_gt_of_ne hne with hlt | hgt
  · have hhigh := Env.level_at_lows (e := e) (c := c) (m := m) (by omega)
    simp [hl (e.lows c m + 1) (by omega) (by omega)] at hhigh
  · have hlow := Env.level_of_lt_lows (e := e) (c := c) (m := m) h1 (by omega)
    simp [hk] at hlow

/-- Where the first 255 reads are low, the count saturates (R112). -/
theorem Env.lows_of_all_low {e : Env} {c : U4} {m : Nat}
    (hl : ∀ i, 1 ≤ i → i ≤ 255 → e.levelOf c m i = false) : e.lows c m = 255 := by
  by_contra hne
  have hle := Env.lows_le e c m
  have hhigh := Env.level_at_lows (e := e) (c := c) (m := m) (by omega)
  simp [hl (e.lows c m + 1) (by omega) (by omega)] at hhigh

/-- The script of `chargeScript` realises ChargeModel (R61). -/
theorem chargeModel_of_script (ks : List (Option Nat)) (n r : Nat) :
    ChargeModel ks { script := chargeScript ks, exec := n, reads := r } := by
  intro c m i k hk h1 h2
  have hi : (List.range maxReads)[i - 1]? = some (i - 1) := List.getElem?_range (by omega)
  have hi' : i - 1 + 1 = i := by omega
  simp [Env.levelOf, chargeScript, hk, hi, hi']

/-- Environments that give the same bits to reads 1 to 255 give the same sample (R71). -/
theorem Env.sample_congr {e₁ e₂ : Env} {c : U4} {m : Nat}
    (h : ∀ j, 1 ≤ j → j ≤ 255 → e₁.levelOf c m j = e₂.levelOf c m j) : e₁.sample c m = e₂.sample c m := by
  rw [Env.sample_eq, Env.sample_eq]
  congr 1
  rcases Nat.lt_or_ge (e₁.lows c m) 255 with h1 | h1
  · refine (Env.lows_of_first_high (k := e₁.lows c m + 1) (by omega) (by omega) ?_ ?_).symm
    · rw [← h _ (by omega) (by omega)]
      exact Env.level_at_lows h1
    · intro i hi hi'
      rw [← h _ hi (by omega)]
      exact Env.level_of_lt_lows hi (by omega)
  · have hle := Env.lows_le e₁ c m
    have h255 : e₁.lows c m = 255 := by omega
    rw [h255]
    refine (Env.lows_of_all_low ?_).symm
    intro i hi hi'
    rw [← h _ hi hi']
    exact Env.level_of_lt_lows hi (by omega)

/-- The loop of R111 step 4, from CNT = 1 and no read made: one record. -/
theorem countLoop_start (c : U4) (s : State) (hr : s.env.reads = 0) :
    countLoop c maxReads (s.setCnt 1) =
      { s with
        cnt := s.env.sample c 1 + 1
        trace := s.trace ++ s.env.readEvents c
        env := { s.env with reads := min (s.env.lows c 1 + 1) 255 } } := by
  by_cases h : s.env.lows c 1 < 255
  · rw [countLoop_high c (s.env.lows c 1) maxReads 0 (s.setCnt 1) h (by omega) hr rfl
      (fun i hi hi' => Env.level_of_lt_lows (by omega) (by simpa using hi'))
      (by simpa using Env.level_at_lows h)]
    simp [State.setCnt, Env.sample_eq, Env.readEvents, h, BitVec.ofNat_add]
  · have hl : s.env.lows c 1 = 255 := by
      have := Env.lows_le s.env c 1
      omega
    rw [countLoop_wrap c 254 maxReads 0 (s.setCnt 1) (by decide) rfl hr rfl
      (fun i hi hi' => Env.level_of_lt_lows (by omega) (by simpa [hl] using hi'))]
    simp [-List.reduceReplicate, State.setCnt, Env.sample_eq, Env.readEvents, hl]

/-- What `measureOnce` does: the RawSample is the number of low reads before the first high one (R112), and the state after
has the pad driven low, CRIT = 0, CNT one above the sample, the events of R114 appended and the environment one execution
on (R115). -/
theorem measureOnce_eq (c : U4) (s : State) :
    measureOnce c s =
      (s.env.sample c 1,
       { s with
         chans := s.chans.modify (chanIndex c) Channel.drivenLow
         cnt := s.env.sample c 1 + 1
         crit := false
         trace := s.trace ++ s.env.measureEvents c
         env := s.env.next }) := by
  have hloop := countLoop_start c (configureInput c (critEnter (driveLow c s.startExecution))) rfl
  have hs : ∀ e : Env, ({ e with reads := 0 } : Env).sample c 1 = e.sample c 1 := fun _ => rfl
  have hl : ∀ e : Env, ({ e with reads := 0 } : Env).readEvents c = e.readEvents c := fun _ => rfl
  unfold measureOnce
  simp only [hloop]
  refine Prod.ext ?_ ?_
  · simp [sub8, hs]
  · cases s
    simp [State.finishExecution, Env.next, configureOutput, critLeave, State.setPadOe, State.updChan, State.log, hs, hl,
      Env.measureEvents, List.modify_modify_eq, Function.comp_def]
    rfl

/-- The executions after the coming one keep their answers. -/
theorem Env.next_levelOf (e : Env) (c : U4) (m i : Nat) :
    e.next.levelOf c (m + 1) i = e.levelOf c (m + 2) i := by
  simp [Env.next, Env.levelOf, Nat.add_right_comm, Nat.add_assoc]

theorem Env.next_lows (e : Env) (c : U4) (m : Nat) : e.next.lows c (m + 1) = e.lows c (m + 2) := by
  simp [Env.lows, Env.next_levelOf]

theorem Env.next_sample (e : Env) (c : U4) (m : Nat) : e.next.sample c (m + 1) = e.sample c (m + 2) := by
  simp [Env.sample_eq, Env.next_lows]

theorem Env.later_lows (e : Env) (c : U4) (n m : Nat) : (e.later n).lows c (m + 1) = e.lows c (n + m + 1) := by
  induction n generalizing e m with
  | zero => simp [Env.later]
  | succ n ih =>
    rw [Env.later, ih, Env.next_lows]
    congr 1
    omega

theorem Env.later_sample (e : Env) (c : U4) (n m : Nat) :
    (e.later n).sample c (m + 1) = e.sample c (n + m + 1) := by
  simp [Env.sample_eq, Env.later_lows]

theorem Env.later_exec (e : Env) (n : Nat) : (e.later n).exec = e.exec + n := by
  induction n generalizing e with
  | zero => rfl
  | succ n ih =>
    rw [Env.later, ih]
    simp [Env.next]
    omega

theorem Env.later_add (e : Env) (m n : Nat) : (e.later m).later n = e.later (m + n) := by
  induction m generalizing e with
  | zero => simp [Env.later]
  | succ m ih =>
    rw [Env.later, ih, Nat.add_right_comm, Env.later]

@[simp] theorem measureOnce_fst (c : U4) (s : State) : (measureOnce c s).1 = s.env.sample c 1 := by
  rw [measureOnce_eq]

/-! ### The events of one execution -/

theorem traceScan_append (p : TracePos) (as bs : List Event) :
    traceScan p (as ++ bs) = (traceScan p as).bind fun q => traceScan q bs := by
  induction as generalizing p with
  | nil => rfl
  | cons a as ih =>
    simp only [List.cons_append, traceScan]
    cases p.after a with
    | none => rfl
    | some q => exact ih q

/-- `n` low reads in a row, while there is room for them. -/
theorem traceScan_lows (c : U4) (r n : Nat) (h : r + n ≤ maxReads) :
    traceScan (.reading c r) (List.replicate n (.read c false)) = some (.reading c (r + n)) := by
  induction n generalizing r with
  | zero => rfl
  | succ n ih =>
    have hr : r < maxReads := by omega
    simp only [List.replicate_succ, traceScan, TracePos.after, hr, and_self, if_true]
    rw [show r + (n + 1) = r + 1 + n by omega]
    exact ih (r + 1) (by omega)

/-- The events of an execution form one whole measurement (R114). -/
theorem traceScan_measureEvents (e : Env) (c : U4) :
    traceScan .idle (e.measureEvents c) = some .idle := by
  have hle := Env.lows_le e c 1
  simp only [Env.measureEvents, Env.readEvents, List.append_assoc, List.cons_append, List.nil_append, traceScan,
    TracePos.after, if_true]
  rw [traceScan_append, traceScan_lows c 0 (e.lows c 1) (by simpa [maxReads] using hle)]
  by_cases h : e.lows c 1 < 255
  · simp [h, traceScan, TracePos.after, maxReads]
  · have h255 : e.lows c 1 = 255 := by omega
    simp [h255, traceScan, TracePos.after, maxReads]

/-- The number of reads of an execution (R112): one more than the low reads before a high one, at most 255. -/
theorem readsIn_measureEvents (e : Env) (c : U4) :
    readsIn (e.measureEvents c) = min (e.lows c 1 + 1) 255 := by
  have hle := Env.lows_le e c 1
  by_cases h : e.lows c 1 < 255
  · simp [readsIn, Env.measureEvents, Env.readEvents, h, List.countP_append, List.countP_replicate]
  · simp [readsIn, Env.measureEvents, Env.readEvents, h, List.countP_append, List.countP_replicate]
    omega

theorem measurementsIn_measureEvents (e : Env) (c : U4) : measurementsIn (e.measureEvents c) = 1 := by
  by_cases h : e.lows c 1 < 255 <;>
    simp [measurementsIn, Env.measureEvents, Env.readEvents, h, List.countP_append, List.countP_replicate]

theorem readsIn_append (as bs : List Event) : readsIn (as ++ bs) = readsIn as + readsIn bs := by
  simp [readsIn]

theorem measurementsIn_append (as bs : List Event) :
    measurementsIn (as ++ bs) = measurementsIn as + measurementsIn bs := by
  simp [measurementsIn]

end Sys2Proof.Machine
end

