-- ==== Sys2Proof/Laws/Filters.lean ====
section
/-!
SUPPORT. What a row of measurements on one channel leaves, and what `average` and `median3` answer (spec/41_filters.md R141,
R143, R145, R147), said once.
-/

namespace Sys2Proof.Machine

/-- `n` executions of measureOnce on one channel, one after the other. -/
def measureTimes (c : U4) : Nat → State → State
  | 0, s => s
  | n + 1, s => measureTimes c n (measureOnce c s).2

/-- The events of the coming `n` executions on channel `c`. -/
def Env.eventsOf (c : U4) : Nat → Env → List Event
  | 0, _ => []
  | n + 1, e => e.measureEvents c ++ Env.eventsOf c n e.next

theorem Channel.drivenLow_drivenLow (ch : Channel) : ch.drivenLow.drivenLow = ch.drivenLow := rfl

/-- At least one measurement leaves the pad of its channel driven low, CRIT = 0, CNT one above the last sample, the events of
all of them appended, and everything else as it was (R115). -/
theorem measureTimes_succ (c : U4) (n : Nat) (s : State) :
    measureTimes c (n + 1) s =
      { s with
        chans := s.chans.modify (chanIndex c) Channel.drivenLow
        cnt := s.env.sample c (n + 1) + 1
        crit := false
        trace := s.trace ++ Env.eventsOf c (n + 1) s.env
        env := s.env.later (n + 1) } := by
  induction n generalizing s with
  | zero => simp [measureTimes, measureOnce_eq, Env.eventsOf, Env.later]
  | succ n ih =>
    rw [measureTimes, ih, measureOnce_eq]
    simp [Env.eventsOf, Env.later, Env.next_sample, List.modify_modify_eq, Function.comp_def,
      Channel.drivenLow_drivenLow]

theorem measureTimes_add (c : U4) (m n : Nat) (s : State) :
    measureTimes c (m + n) s = measureTimes c n (measureTimes c m s) := by
  induction m generalizing s with
  | zero => simp [measureTimes]
  | succ m ih => rw [Nat.add_right_comm, measureTimes, ih, measureTimes]

theorem traceScan_eventsOf (c : U4) (n : Nat) (e : Env) :
    traceScan .idle (Env.eventsOf c n e) = some .idle := by
  induction n generalizing e with
  | zero => rfl
  | succ n ih => simp [Env.eventsOf, traceScan_append, traceScan_measureEvents, ih]

theorem measurementsIn_eventsOf (c : U4) (n : Nat) (e : Env) : measurementsIn (Env.eventsOf c n e) = n := by
  induction n generalizing e with
  | zero => rfl
  | succ n ih => rw [Env.eventsOf, measurementsIn_append, measurementsIn_measureEvents, ih, Nat.add_comm]

/-- Each measurement makes 1 to 255 reads (R116, R240). -/
theorem readsIn_eventsOf (c : U4) (n : Nat) (e : Env) :
    n ≤ readsIn (Env.eventsOf c n e) ∧ readsIn (Env.eventsOf c n e) ≤ 255 * n := by
  induction n generalizing e with
  | zero => simp [Env.eventsOf, readsIn]
  | succ n ih =>
    have := ih e.next
    rw [Env.eventsOf, readsIn_append, readsIn_measureEvents]
    omega

/-! ### average -/

/-- The sum of the samples of the executions `m + 1` to `m + n` from here, as a number. -/
def Env.sampleSum (e : Env) (c : U4) (m : Nat) : Nat → Nat
  | 0 => 0
  | n + 1 => e.sampleSum c m n + (e.sample c (m + n + 1)).toNat

theorem Env.sampleSum_le (e : Env) (c : U4) (m n : Nat) : e.sampleSum c m n ≤ 255 * n := by
  induction n with
  | zero => simp [Env.sampleSum]
  | succ n ih =>
    have := (e.sample c (m + n + 1)).isLt
    simp only [Env.sampleSum]
    omega

theorem Env.sampleSum_next (e : Env) (c : U4) (m n : Nat) :
    e.next.sampleSum c m n = e.sampleSum c (m + 1) n := by
  induction n with
  | zero => rfl
  | succ n ih =>
    simp only [Env.sampleSum, ih, Env.next_sample]
    congr 3
    omega

theorem Env.sampleSum_head (e : Env) (c : U4) (n : Nat) :
    e.sampleSum c 0 (n + 1) = (e.sample c 1).toNat + e.sampleSum c 1 n := by
  induction n with
  | zero => simp [Env.sampleSum]
  | succ n ih =>
    rw [Env.sampleSum, ih, Env.sampleSum, Nat.add_assoc]
    congr 4
    omega

/-- The loop of `average` takes `n` samples; its accumulator is the 16-bit sum. -/
theorem sumSamples_eq (c : U4) (n : Nat) (acc : U16) (s : State) :
    sumSamples c n acc s = (acc + BitVec.ofNat 16 (s.env.sampleSum c 0 n), measureTimes c n s) := by
  induction n generalizing acc s with
  | zero => simp [sumSamples, Env.sampleSum, measureTimes]
  | succ n ih =>
    rw [sumSamples, ih, measureTimes]
    refine Prod.ext ?_ rfl
    have he : (measureOnce c s).2.env = s.env.next := by rw [measureOnce_eq]
    simp only [measureOnce_fst, he, Env.sampleSum_next, Env.sampleSum_head, add16, zext16, BitVec.ofNat_add]
    rw [BitVec.add_assoc]
    congr 2
    apply BitVec.eq_of_toNat_eq
    have := (s.env.sample c 1).isLt
    simp

/-- Division by a count that is not 0 (R8). -/
theorem div16_of_ne {a : U16} {n : U8} (hn : n ≠ 0) : div16 a n = a / zext16 n := if_neg hn

/-- What `average` answers: the truncated mean of the `n` samples after the throwaway one, and `n + 1` measurements (R141,
R143). -/
theorem average_eq (c : U4) (n : U8) (s : State) (hn : n ≠ 0) :
    average c n s =
      (BitVec.ofNat 8 (s.env.sampleSum c 1 n.toNat / n.toNat), measureTimes c (n.toNat + 1) s) := by
  have he : (measureOnce c s).2.env = s.env.next := by rw [measureOnce_eq]
  have hpos : 0 < n.toNat := Nat.pos_of_ne_zero fun h => hn (BitVec.eq_of_toNat_eq (by simpa using h))
  have hle := s.env.sampleSum_le c 1 n.toNat
  have hn255 : n.toNat ≤ 255 := by have := n.isLt; omega
  have hsum : s.env.sampleSum c 1 n.toNat < 65536 := by nlinarith
  unfold average
  rw [sumSamples_eq]
  refine Prod.ext ?_ ?_
  · apply BitVec.eq_of_toNat_eq
    have hm : n.toNat % 65536 = n.toNat := Nat.mod_eq_of_lt (by omega)
    dsimp only
    rw [div16_of_ne hn]
    simp [trunc8, zext16, countOf, he, Env.sampleSum_next, BitVec.toNat_udiv, Nat.mod_eq_of_lt hsum, hm]
  · rw [countOf, measureTimes]

/-- The state after `average`, for any count: `n + 1` measurements (R143 (e)). -/
theorem average_state (c : U4) (n : U8) (s : State) : (average c n s).2 = measureTimes c (n.toNat + 1) s := by
  unfold average
  rw [sumSamples_eq]
  rfl

/-! ### median3 -/

/-- What `median3` answers: the decision tree on the three samples after the throwaway one, and four measurements (R145). -/
theorem median3_eq (c : U4) (s : State) :
    median3 c s =
      (medianTree (s.env.sample c 2) (s.env.sample c 3) (s.env.sample c 4), measureTimes c 4 s) := by
  have he : ∀ t : State, (measureOnce c t).2.env = t.env.next := fun t => by rw [measureOnce_eq]
  simp [median3, he, Env.next_sample, measureTimes]

/-- The decision tree returns one of its three arguments. -/
theorem medianTree_mem (v0 v1 v2 : U8) : medianTree v0 v1 v2 ∈ [v0, v1, v2] := by
  unfold medianTree
  split_ifs <;> simp

/-! ### The configured filter -/

/-- The configured filter is a row of at least one measurement, whatever the strap. -/
theorem configuredFilter_measures (c : U4) (s : State) :
    ∃ n, (configuredFilter c s).2 = measureTimes c (n + 1) s := by
  unfold configuredFilter
  cases (s.cfg c).fsel with
  | average => exact ⟨_, average_state _ _ _⟩
  | median3 =>
    refine ⟨3, ?_⟩
    show (median3 c s).2 = measureTimes c 4 s
    rw [median3_eq]

/-- The configured filter's state: a row of measurements (R164). -/
theorem configuredFilter_state (c : U4) (s : State) (h : (s.cfg c).wf = true) :
    (configuredFilter c s).2 = measureTimes c (filterMeasures (s.cfg c)) s := by
  have hn : (s.cfg c).nsamp ≠ 0 := by
    simp [ChanCfg.wf] at h
    exact h.2
  unfold configuredFilter filterMeasures
  cases (s.cfg c).fsel with
  | average => exact congrArg Prod.snd (average_eq c _ s hn)
  | median3 =>
    show (median3 c s).2 = measureTimes c 4 s
    rw [median3_eq]

end Sys2Proof.Machine
end

