-- ==== Sys2Proof/Laws/Calibrator.lean ====
section
/-!
SUPPORT. The arithmetic of `evaluate` (spec/42_calibrator.md R161) in numbers, and what `evaluate` changes.
-/

namespace Sys2Proof.Machine

/-- A well-formed strap's offset is 0 to 8 and its sample count is not 0 (R6). -/
theorem ChanCfg.wf_iff (g : ChanCfg) : g.wf = true ↔ g.offset.toNat ≤ 8 ∧ g.nsamp ≠ 0 := by
  simp [ChanCfg.wf]

/-- Step 1 of R161: floor(REF / 2^OFFSET) mod 256. -/
theorem baseline_toNat {ref : U16} {o : U4} (h : o.toNat ≤ 8) :
    (baseline ref o).toNat = ref.toNat / 2 ^ o.toNat % 256 := by
  simp [baseline, shr16, h, trunc8, Nat.shiftRight_eq_div_pow]

/-- The snap value of R161 never loses a bit. -/
theorem snapValue_toNat {x : U8} {o : U4} (h : o.toNat ≤ 8) :
    (shl16 (zext16 x) o.toNat).toNat = x.toNat * 2 ^ o.toNat := by
  have hx := x.isLt
  have hp : 2 ^ o.toNat ≤ 2 ^ 8 := Nat.pow_le_pow_right (by omega) h
  have hlt : x.toNat * 2 ^ o.toNat < 65536 := by nlinarith
  have hx' : x.toNat % 65536 = x.toNat := Nat.mod_eq_of_lt (by omega)
  simp [shl16, h, zext16, Nat.shiftLeft_eq, hx', Nat.mod_eq_of_lt hlt]

/-- Step 2 of R161: the difference wraps when the sample is below the baseline. -/
theorem difference_toNat (x b : U8) : (difference x b).toNat = (x.toNat + 256 - b.toNat) % 256 := by
  have := b.isLt
  simp only [difference, sub8, BitVec.toNat_sub]
  congr 1
  omega

/-- Step 3 of R161. -/
theorem touched_iff (x b T : U8) :
    touched x b T = true ↔ T.toNat < (x.toNat + 256 - b.toNat) % 256 := by
  simp only [touched, decide_eq_true_eq, BitVec.lt_def, difference_toNat]

/-- Step 4 of R161, at or below the baseline: the reference snaps. -/
theorem nextRef_snap {ref : U16} {o : U4} {x b : U8} (h : x.toNat ≤ b.toNat) :
    nextRef ref o x b = shl16 (zext16 x) o.toNat := by
  simp [nextRef, snaps, BitVec.le_def, h]

/-- Step 4 of R161, above the baseline: the reference cools down. -/
theorem nextRef_cool {ref : U16} {o : U4} {x b : U8} (h : b.toNat < x.toNat) :
    nextRef ref o x b = ref + 1 := by
  have : ¬ x.toNat ≤ b.toNat := by omega
  simp [nextRef, snaps, BitVec.le_def, this, add16]

/-- What `evaluate` does: the decision, and one register written (R160). -/
theorem evaluate_eq (c : U4) (x : U8) (s : State) :
    evaluate c x s =
      (touched x (baseline (s.ref c) (s.cfg c).offset) (s.cfg c).thresh,
       s.setRef c (nextRef (s.ref c) (s.cfg c).offset x (baseline (s.ref c) (s.cfg c).offset))) := rfl

/-! ### Measurements leave references, straps and the other channels alone -/

theorem measureTimes_chans_get (c : U4) (n : Nat) (s : State) (k : Nat) :
    (measureTimes c (n + 1) s).chans[k]? =
      if chanIndex c = k then s.chans[k]?.map Channel.drivenLow else s.chans[k]? := by
  rw [measureTimes_succ]
  simp only [List.getElem?_modify]
  split <;> simp

@[simp] theorem measureTimes_ref (c : U4) (n : Nat) (s : State) (d : U4) :
    (measureTimes c n s).ref d = s.ref d := by
  cases n with
  | zero => rfl
  | succ n =>
    simp only [State.ref, measureTimes_chans_get]
    by_cases hk : chanIndex c = chanIndex d
    · cases hc : s.chans[chanIndex d]? <;> simp [hk, Channel.drivenLow]
    · simp [hk]

@[simp] theorem measureTimes_cfg (c : U4) (n : Nat) (s : State) (d : U4) :
    (measureTimes c n s).cfg d = s.cfg d := by
  cases n with
  | zero => rfl
  | succ n =>
    simp only [State.cfg, measureTimes_chans_get]
    by_cases hk : chanIndex c = chanIndex d
    · cases hc : s.chans[chanIndex d]? <;> simp [hk, Channel.drivenLow]
    · simp [hk]

@[simp] theorem measureTimes_nch (c : U4) (n : Nat) (s : State) : (measureTimes c n s).nch = s.nch := by
  cases n with
  | zero => rfl
  | succ n =>
    rw [measureTimes_succ]
    simp [State.nch]

@[simp] theorem measureTimes_responses (c : U4) (n : Nat) (s : State) :
    (measureTimes c n s).responses = s.responses := by
  cases n with
  | zero => rfl
  | succ n => rw [measureTimes_succ]

@[simp] theorem measureTimes_host (c : U4) (n : Nat) (s : State) : (measureTimes c n s).host = s.host := by
  cases n with
  | zero => rfl
  | succ n => rw [measureTimes_succ]

@[simp] theorem measureTimes_busy (c : U4) (n : Nat) (s : State) : (measureTimes c n s).busy = s.busy := by
  cases n with
  | zero => rfl
  | succ n => rw [measureTimes_succ]

@[simp] theorem measureTimes_crit (c : U4) (n : Nat) (s : State) : (measureTimes c (n + 1) s).crit = false := by
  rw [measureTimes_succ]

/-- After a measurement CNT is one above the last sample (R115). -/
theorem measureTimes_cnt (c : U4) (n : Nat) (s : State) :
    (measureTimes c (n + 1) s).cnt = s.env.sample c (n + 1) + 1 := by
  rw [measureTimes_succ]

/-- The events of measurements on channel `c` belong to channel `c` or to the critical region. -/
theorem eventsOf_chan (c : U4) (n : Nat) (e : Env) :
    ∀ ev ∈ Env.eventsOf c n e, ev.chan? = some c ∨ ev.chan? = none := by
  induction n generalizing e with
  | zero => simp [Env.eventsOf]
  | succ n ih =>
    intro ev hev
    rcases List.mem_append.mp hev with h | h
    · have hr : ∀ ev ∈ e.readEvents c, ev.chan? = some c := by
        intro ev hev
        rcases List.mem_append.mp hev with h | h
        · rw [(List.mem_replicate.mp h).2]
          rfl
        · split at h
          · rw [List.mem_singleton.mp h]
            rfl
          · simp at h
      simp only [Env.measureEvents, List.mem_append, List.mem_cons, List.not_mem_nil, or_false] at h
      rcases h with ((rfl | rfl | rfl) | h) | (rfl | rfl)
      · exact .inl rfl
      · exact .inr rfl
      · exact .inl rfl
      · exact .inl (hr ev h)
      · exact .inr rfl
      · exact .inl rfl
    · exact ih _ ev h

/-- A row of measurements appends its events. -/
theorem measureTimes_trace (c : U4) (n : Nat) (s : State) :
    (measureTimes c n s).trace = s.trace ++ Env.eventsOf c n s.env := by
  cases n with
  | zero => simp [measureTimes, Env.eventsOf]
  | succ n => rw [measureTimes_succ]

/-- A row of measurements moves the environment on. -/
theorem measureTimes_env (c : U4) (n : Nat) (s : State) : (measureTimes c n s).env = s.env.later n := by
  cases n with
  | zero => rfl
  | succ n => rw [measureTimes_succ]

/-- After a measurement the pad of channel `c` is driven low, and the other pads are as they were (R115). -/
theorem measureTimes_padOut {c : U4} {s : State} (h : c.toNat < s.nch) (n : Nat) (d : U4) :
    (measureTimes c (n + 1) s).padOut d = if d = c then false else s.padOut d := by
  obtain ⟨ch, hc⟩ := State.chan_of_lt h
  by_cases hd : d = c
  · subst hd
    simp [State.padOut, measureTimes_chans_get, hc, Channel.drivenLow]
  · have hk : ¬ chanIndex c = chanIndex d := fun e => hd (chanIndex_inj.mp e).symm
    simp [State.padOut, measureTimes_chans_get, hk, hd]

theorem measureTimes_padOe {c : U4} {s : State} (h : c.toNat < s.nch) (n : Nat) (d : U4) :
    (measureTimes c (n + 1) s).padOe d = if d = c then true else s.padOe d := by
  obtain ⟨ch, hc⟩ := State.chan_of_lt h
  by_cases hd : d = c
  · subst hd
    simp [State.padOe, measureTimes_chans_get, hc, Channel.drivenLow]
  · have hk : ¬ chanIndex c = chanIndex d := fun e => hd (chanIndex_inj.mp e).symm
    simp [State.padOe, measureTimes_chans_get, hk, hd]

end Sys2Proof.Machine
end

