-- ==== Sys2Proof/Laws/PerInstr.lean ====
section
/-!
SUPPORT. For every command: its word lies in its row of the opcode table (spec/30_encoding.md R84).
-/

namespace Sys2Proof.Laws.TableRow

/-- The word of the command agrees with `match` under `mask`. -/
def Statement (i : Instr) : Prop := encode i &&& i.tableMask = i.tableMatch

theorem meas (c : U4) : Statement (.meas c) := by
  have h : ∀ c : U4, commandWord 1 c 0 &&& 0xF0FF = 0x1000 := by decide
  exact h c

theorem avg (c : U4) (n : U8) : Statement (.avg c n) := by
  have h : ∀ c : U4, ∀ n : U8, (commandWord 2 c n) &&& 0xF000 = 0x2000 := by
    intro c n
    apply BitVec.eq_of_getLsbD_eq
    intro i hi
    simp only [commandWord, BitVec.getLsbD_and, BitVec.getLsbD_append]
    interval_cases i <;> simp
  exact h c n

theorem med3 (c : U4) : Statement (.med3 c) := by
  have h : ∀ c : U4, commandWord 3 c 0 &&& 0xF0FF = 0x3000 := by decide
  exact h c

theorem eval (c : U4) (x : U8) : Statement (.eval c x) := by
  have h : ∀ c : U4, ∀ x : U8, (commandWord 4 c x) &&& 0xF000 = 0x4000 := by
    intro c n
    apply BitVec.eq_of_getLsbD_eq
    intro i hi
    simp only [commandWord, BitVec.getLsbD_and, BitVec.getLsbD_append]
    interval_cases i <;> simp
  exact h c x

theorem scan (c : U4) : Statement (.scan c) := by
  have h : ∀ c : U4, commandWord 5 c 0 &&& 0xF0FF = 0x5000 := by decide
  exact h c

theorem rdref (c : U4) : Statement (.rdref c) := by
  have h : ∀ c : U4, commandWord 6 c 0 &&& 0xF0FF = 0x6000 := by decide
  exact h c

end Sys2Proof.Laws.TableRow
end

