-- ==== Sys2Proof/Laws/Step.lean ====
section
/-!
SUPPORT. What a command and a step can do, said once: every command answers a next state, and a step that answers a next state
is one of seven cases.
-/

namespace Sys2Proof.Machine

/-- What a command does once its operands are legal. -/
def commandBody (i : Instr) : State → State :=
  match i with
  | .meas c => runMeas c
  | .avg c n => runAvg c n
  | .med3 c => runMed3 c
  | .eval c x => runEval c x
  | .scan c => runScan c
  | .rdref c => runRdref c

/-- Every command answers a next state (R12: it completes or it is rejected). -/
theorem exec_eq (i : Instr) (s : State) : exec i s = .next (whenLegal i (commandBody i) s) := by
  cases i <;> rfl

/-- A command with legal operands completes. -/
theorem exec_of_wf {i : Instr} {s : State} (h : i.wf s.nch = true) :
    exec i s = .next (commandBody i (accept s)) := by
  rw [exec_eq, whenLegal_of_wf _ h]

/-- A command with illegal operands is rejected. -/
theorem exec_of_reject {i : Instr} {s : State} {r : Reject} (h : i.operandReject s.nch = some r) :
    exec i s = .next (reject r (accept s)) := by
  rw [exec_eq, whenLegal_of_reject _ h]

/-- A word that decodes to a command selects it, and its operands are legal (R82). -/
theorem decode_ok_wf {nch : Nat} {w : U16} {i : Instr} (h : decode nch w = .ok i) :
    selectCommand w = some i ∧ i.wf nch = true := by
  unfold decode at h
  cases hs : selectCommand w with
  | none => simp [hs] at h
  | some j =>
    rw [hs] at h
    cases hr : j.operandReject nch with
    | some r => simp [hr] at h
    | none =>
      simp only [hr, Except.ok.injEq] at h
      exact ⟨by rw [h], h ▸ (Instr.operandReject_none_iff _ _).mp hr⟩

/-- A word that decodes to a command is executed. -/
theorem runWord_ok {w : U16} {s : State} {i : Instr} (h : decode s.nch w = .ok i) :
    runWord w s = exec i s := by
  simp [runWord, (decode_ok_wf h).1]

/-- A word that the decoder of R82 rejects is answered with its reason, whichever of the four checks fails. -/
theorem runWord_error {w : U16} {s : State} {r : Reject} (h : decode s.nch w = .error r) :
    runWord w s = .next (reject r (accept s)) := by
  unfold decode at h
  unfold runWord
  cases hs : selectCommand w with
  | none =>
    simp only [hs, Except.error.injEq] at h
    simp [h]
  | some i =>
    rw [hs] at h
    cases hr : i.operandReject s.nch with
    | none => simp [hr] at h
    | some r' =>
      simp only [hr, Except.error.injEq] at h
      exact h ▸ exec_of_reject hr

/-- MEAS, AVG, MED3 and SCAN are a row of measurements, for SCAN an evaluation, and a response; EVAL is an evaluation and a
response; RDREF is a response. -/
theorem commandBody_meas (c : U4) (s : State) :
    commandBody (.meas c) s = respond (sampleValue (s.env.sample c 1)) (measureTimes c 1 s) := by
  simp [commandBody, runMeas, measureTimes]

theorem commandBody_avg (c : U4) (n : U8) (s : State) (hn : n ≠ 0) :
    commandBody (.avg c n) s =
      respond (sampleValue (BitVec.ofNat 8 (s.env.sampleSum c 1 n.toNat / n.toNat)))
        (measureTimes c (n.toNat + 1) s) := by
  simp only [commandBody, runAvg, average_eq c n s hn]

theorem commandBody_med3 (c : U4) (s : State) :
    commandBody (.med3 c) s =
      respond (sampleValue (medianTree (s.env.sample c 2) (s.env.sample c 3) (s.env.sample c 4)))
        (measureTimes c 4 s) := by
  simp only [commandBody, runMed3, median3_eq]

theorem commandBody_eval (c : U4) (x : U8) (s : State) :
    commandBody (.eval c x) s = respond (evalValue (evaluate c x s).1) (evaluate c x s).2 := rfl

theorem commandBody_scan (c : U4) (s : State) :
    commandBody (.scan c) s =
      respond (scanValue (evaluate c (configuredFilter c s).1 (configuredFilter c s).2).1 (configuredFilter c s).1)
        (evaluate c (configuredFilter c s).1 (configuredFilter c s).2).2 := rfl

theorem commandBody_rdref (c : U4) (s : State) :
    commandBody (.rdref c) s = respond (s.ref c) s := rfl

/-- Everything an action of the host that answers a next state can be: a word rejected; a command executed; a pad written; a
reset. -/
theorem act_cases {a : HostAction} {s t : State} (h : act a s = .next t) :
    (∃ w r, a = .command w ∧ s.busy = false ∧ decode s.nch w = .error r ∧ t = reject r (accept s)) ∨
    (∃ w i, a = .command w ∧ s.busy = false ∧ decode s.nch w = .ok i ∧ t = commandBody i (accept s)) ∨
    (∃ c b, a = .setOut c b ∧ s.busy = false ∧ chanIndex c < s.nch ∧ t = hostSetOut c b s) ∨
    ((a = .reset ∨ ∃ w, a = .resetDuring w ∧ s.busy = false) ∧ t = assertReset s) := by
  cases a with
  | command w =>
    by_cases hb : s.busy = true
    · simp [act, hb] at h
    · have hb' : s.busy = false := by simpa using hb
      simp only [act, hb] at h
      cases hw : decode s.nch w with
      | error r =>
        rw [runWord_error hw] at h
        exact .inl ⟨w, r, rfl, hb', hw, (Host.Outcome.next.inj h).symm⟩
      | ok i =>
        rw [runWord_ok hw, exec_of_wf (decode_ok_wf hw).2] at h
        exact .inr (.inl ⟨w, i, rfl, hb', hw, (Host.Outcome.next.inj h).symm⟩)
  | setOut c b =>
    by_cases hb : s.busy = true
    · simp [act, hb] at h
    · by_cases hc : s.nch ≤ chanIndex c
      · simp [act, hb, hc] at h
      · simp only [act, hb, hc, if_false] at h
        exact .inr (.inr (.inl ⟨c, b, rfl, by simpa using hb, by omega, (Host.Outcome.next.inj h).symm⟩))
  | reset => exact .inr (.inr (.inr ⟨.inl rfl, (Host.Outcome.next.inj h).symm⟩))
  | resetDuring w =>
    by_cases hb : s.busy = true
    · simp [act, hb] at h
    · simp only [act, hb] at h
      exact .inr (.inr (.inr ⟨.inr ⟨w, rfl, by simpa using hb⟩, (Host.Outcome.next.inj h).symm⟩))

/-- Everything a step that answers a next state can be: nothing to do, or the host's next action (`act_cases`). -/
theorem step_cases {s t : State} (h : step s = .next t) :
    (s.host = [] ∧ t = s) ∨
    (∃ a rest, s.host = a :: rest ∧ act a { s with host := rest } = .next t) := by
  unfold step hostStep at h
  cases hh : s.host with
  | nil =>
    rw [hh] at h
    exact .inl ⟨rfl, (Host.Outcome.next.inj h).symm⟩
  | cons a rest =>
    rw [hh] at h
    exact .inr ⟨a, rest, rfl, h⟩

/-- A step with an action to take takes it. -/
theorem step_cons {s : State} {a : HostAction} {rest : List HostAction} (h : s.host = a :: rest) :
    step s = act a { s with host := rest } := by
  simp [step, hostStep, h]

/-! ### Runs -/

/-- A run of one more step, from its first step. -/
theorem run_of_step {n : Nat} {s t : State} (h : step s = .next t) :
    Host.Core.run Sys2Proof.core (n + 1) s = Host.Core.run Sys2Proof.core n t := by
  have hrun : ∀ (M : Host.Core) (a b : M.State), M.step a = .next b → M.run (n + 1) a = M.run n b := by
    intro M a b hab
    rw [Host.Core.run]
    simp only [hab]
  exact hrun Sys2Proof.core s t h

/-- A run of one more step that answers a next state has a first step that does. -/
theorem step_of_run {n : Nat} {s t : State} (h : Host.Core.run Sys2Proof.core (n + 1) s = .next t) :
    ∃ u, step s = .next u ∧ Host.Core.run Sys2Proof.core n u = .next t := by
  have hrun : ∀ (M : Host.Core) (a b : M.State), M.run (n + 1) a = .next b →
      ∃ u, M.step a = .next u ∧ M.run n u = .next b := by
    intro M a b hab
    rw [Host.Core.run] at hab
    split at hab
    · exact ⟨_, by assumption, hab⟩
    · cases hab
    · cases hab
  exact hrun Sys2Proof.core s t h

/-- Two runs in a row are one. -/
theorem run_add {m n : Nat} {s t : State} (h : Host.Core.run Sys2Proof.core m s = .next t) :
    Host.Core.run Sys2Proof.core (m + n) s = Host.Core.run Sys2Proof.core n t := by
  induction m generalizing s with
  | zero =>
    cases (show Host.Outcome.next s = Host.Outcome.next t from h)
    rw [Nat.zero_add]
  | succ m ih =>
    obtain ⟨u, hu, hr⟩ := step_of_run h
    rw [Nat.succ_add, run_of_step hu, ih hr]

/-! ### The parts of the invariant -/

theorem State.inv_iff (s : State) :
    s.inv = true ↔
      1 ≤ s.nch ∧ s.nch ≤ 16 ∧ (∀ ch ∈ s.chans, ch.ok = true) ∧ s.crit = false ∧ s.busy = false ∧
        traceScan .idle s.trace = some .idle ∧ ∀ r ∈ s.responses, r.ok = true := by
  simp [State.inv, traceOk, and_assoc]

/-- A change to one channel keeps every channel in order if it keeps that one. -/
theorem channels_ok_modify {l : List Channel} {k : Nat} {f : Channel → Channel} (h : ∀ ch ∈ l, ch.ok = true)
    (hf : ∀ ch, l[k]? = some ch → ch.ok = true → (f ch).ok = true) : ∀ ch ∈ l.modify k f, ch.ok = true := by
  intro ch hch
  obtain ⟨j, hj⟩ := List.mem_iff_getElem?.mp hch
  rw [List.getElem?_modify] at hj
  cases hl : l[j]? with
  | none => simp [hl] at hj
  | some a =>
    have ha := h a (List.mem_of_getElem? hl)
    by_cases hk : k = j
    · subst hk
      obtain rfl : f a = ch := by simpa [hl] using hj
      exact hf a hl ha
    · obtain rfl : a = ch := by simpa [hl, hk] using hj
      exact ha

end Sys2Proof.Machine
end

