-- ==== Sys2Proof/Tests/Slice0.lean ====
section
/-!
SUPPORT. Tests of single steps and words, each with the place in spec/ its expected result comes from, and for every statement
with hypotheses a witness: a concrete state and operands that meet all of them together.
-/

namespace Sys2Proof.Tests

open Sys2Proof.Machine

/-! ### Small states -/

/-- A strap with the averaging filter. -/
def avgCfg (n : U8) (o : U4) (t : U8) : ChanCfg := { fsel := .average, nsamp := n, offset := o, thresh := t }

/-- A strap with the median filter. -/
def medCfg (o : U4) (t : U8) : ChanCfg := { fsel := .median3, nsamp := 1, offset := o, thresh := t }

/-- The answers that give these samples, one execution of measureOnce after another: `v` low reads, then a high one. -/
def answers (vs : List Nat) : List (List Bool) := vs.map fun v => List.replicate v false ++ [true]

/-- The machine after reset with these straps, and an environment bound to give these answers. -/
def start (gs : List ChanCfg) (script : List (List Bool)) : State :=
  { State.resetWith gs with env := { script := script, exec := 0, reads := 0 } }

/-- Two channels as in P2 of spec/95_test_vectors.md: an average of 3 and a median. -/
def two (script : List (List Bool)) : State := start [avgCfg 3 2 3, medCfg 4 4] script

/-- The same with `REF[1] = r`. -/
def twoRef (r : U16) (script : List (List Bool)) : State := (two script).setRef 1 r

/-- What a next state shows; nothing for a stop. -/
def shown {α : Type} (f : State → α) (o : Host.Outcome State Fault Refusal) : Option α :=
  match o with
  | .next t => some (f t)
  | .fault _ => none
  | .refused _ => none

/-- The last response of a next state, as ST and VAL. -/
def reply (o : Host.Outcome State Fault Refusal) : Option (Nat × Nat) :=
  match shown (fun t => t.responses.getLast?) o with
  | some (some r) => some (r.st.toNat, r.val.toNat)
  | _ => none

/-- One step of an idle block on a command word. -/
def issue (w : U16) (s : State) : Host.Outcome State Fault Refusal := step { s with host := [.command w] }

/-- `evaluate` on one channel with the given REF, OFFSET, THRESH: the decision and the new REF (section 4 of
spec/95_test_vectors.md). -/
def evaluated (x : U8) (ref : U16) (o : U4) (t : U8) : Bool × Nat :=
  let r := evaluate 0 x ((start [avgCfg 1 o t] []).setRef 0 ref)
  (r.1, (r.2.ref 0).toNat)

/-! ### WellFormed: every check refuses something -/

/-- R82 check 3: channel 2 of a block of two channels does not exist, channel 1 does. -/
theorem test_wf_channel : (Instr.meas 2).wf 2 = false ∧ (Instr.meas 1).wf 2 = true := by decide

/-- R82 check 4: AVG with n = 0. -/
theorem test_wf_count : (Instr.avg 0 0).wf 2 = false ∧ (Instr.avg 0 1).wf 2 = true := by decide

/-- R6: OFFSET 9 and NSAMP 0 are ill formed, OFFSET 8 and NSAMP 1 are not. -/
theorem test_wf_strap :
    (avgCfg 1 9 0).wf = false ∧ (avgCfg 0 8 0).wf = false ∧ (avgCfg 1 8 0).wf = true := by decide

/-- R5: no channel and seventeen channels are ill formed, sixteen are not. -/
theorem test_wf_channels :
    strapsWf [] = false ∧ strapsWf (List.replicate 17 (medCfg 0 0)) = false ∧
      strapsWf (List.replicate 16 (medCfg 0 0)) = true := by decide

/-! ### Decoding: words written out from R80, R84 and the table of section 4 of spec/95_test_vectors.md (NCH = 2) -/

theorem test_decode_sampler_words :
    decode 2 0b0001000000000000 = .ok (.meas 0) ∧ decode 2 0b0001000100000000 = .ok (.meas 1) ∧
      decode 2 0b0001001000000000 = .error .badChannel ∧ decode 2 0b0001000000000001 = .error .illegalCmd := by
  decide

theorem test_decode_filter_words :
    decode 2 0b0010000111111111 = .ok (.avg 1 255) ∧ decode 2 0b0010000000000000 = .error .nZero ∧
      decode 2 0b0010111100000000 = .error .badChannel ∧ decode 2 0b0011000100000000 = .ok (.med3 1) := by
  decide

theorem test_decode_calibrator_words :
    decode 2 0b0100000111111111 = .ok (.eval 1 255) ∧ decode 2 0b0101000000000000 = .ok (.scan 0) ∧
      decode 2 0b0101000010000000 = .error .illegalCmd ∧ decode 2 0b0110000100000000 = .ok (.rdref 1) := by
  decide

/-- R193's examples, with NCH = 4 for the first. -/
theorem test_decode_priority :
    decode 4 0x0F00 = .error .illegalCmd ∧ decode 2 0x1F01 = .error .illegalCmd ∧
      decode 2 0x2F00 = .error .badChannel := by decide

/-- R85: reserved opcodes. -/
theorem test_decode_reserved :
    ([0x0000, 0x7000, 0x8123, 0xFFFF] : List U16).all (fun w => selectCommand w = none) = true := by decide

/-- The words of the worked examples of R113, R142, R146, R162, R164. -/
theorem test_encode_words :
    encode (.meas 0) = 0x1000 ∧ encode (.avg 0 5) = 0x2005 ∧ encode (.med3 1) = 0x3100 ∧
      encode (.eval 0 30) = 0x401E ∧ encode (.scan 1) = 0x5100 ∧ encode (.rdref 0) = 0x6000 := by decide

/-- R87's examples, a hexadecimal literal among them. -/
theorem test_assembler :
    parseCommand ['A', 'V', 'G', ' ', '2', ',', ' ', '5'] = some (.avg 2 5) ∧
      parseCommand ['E', 'V', 'A', 'L', ' ', '0', 'x', '0', ',', ' ', '0', 'x', '1', 'E'] = some (.eval 0 30) ∧
      parseCommand ['S', 'C', 'A', 'N', ' ', '3'] = some (.scan 3) := by decide

/-! ### One step of each command -/

/-- R113's worked example: K = 11 gives 0x000A. -/
theorem test_meas_worked : reply (issue 0x1000 (start [medCfg 0 0] (answers [10]))) = some (0, 10) := by decide

/-- Section 2 of spec/95_test_vectors.md: the trace of `MEAS 0` with K = 3. -/
theorem test_meas_trace :
    shown State.trace (issue 0x1000 (start [medCfg 0 0] (answers [2]))) =
      some [.driveLow 0, .critEnter, .cfgIn 0, .read 0 false, .read 0 false, .read 0 true, .critLeave, .cfgOut 0] := by
  decide

/-- R142's worked example: 3 | 10, 11, 10, 12, 10 gives 10. -/
theorem test_avg_worked : reply (issue 0x2005 (two (answers [3, 10, 11, 10, 12, 10]))) = some (0, 10) := by decide

/-- R141, R192: n = 0 is rejected, with no event. -/
theorem test_avg_zero :
    reply (issue 0x2000 (two [])) = some (1, 0) ∧ shown State.trace (issue 0x2000 (two [])) = some [] := by decide

set_option maxRecDepth 8000 in
/-- R146's worked example: 1 | 7, 3, 200 gives 7. -/
theorem test_med3_worked : reply (issue 0x3100 (two (answers [1, 7, 3, 200]))) = some (0, 7) := by decide

/-- Section 3 of spec/95_test_vectors.md: one row for each leaf of the tree of R145, and ties. -/
theorem test_median_tree :
    ([(3, 7, 200, 7), (3, 200, 7, 7), (7, 200, 3, 7), (200, 7, 3, 7), (200, 3, 7, 7), (7, 3, 200, 7), (5, 9, 5, 5),
      (9, 5, 5, 5), (2, 9, 9, 9), (9, 9, 2, 9), (4, 4, 4, 4)] : List (U8 × U8 × U8 × U8)).all
        (fun r => medianTree r.1 r.2.1 r.2.2.1 = r.2.2.2) = true := by decide

/-- R162's worked example, first step: touched, snap to 0x00A0. -/
theorem test_eval_first :
    reply (issue 0x400A (start [medCfg 4 4] [])) = some (0, 1) ∧
      shown (fun t => t.ref 0) (issue 0x400A (start [medCfg 4 4] [])) = some 0x00A0 := by decide

/-- Section 4 of spec/95_test_vectors.md: snap, cool-down, the strict comparison, the wrap below the baseline, the largest
values, the truncation. -/
theorem test_eval_rows :
    evaluated 10 0x00A0 4 4 = (false, 0x00A0) ∧ evaluated 30 0x00A0 4 4 = (true, 0x00A1) ∧
      evaluated 14 0x00A1 4 4 = (false, 0x00A2) ∧ evaluated 9 0x00A0 4 4 = (true, 0x0090) ∧
      evaluated 255 0xFFFF 8 0 = (false, 0xFF00) ∧ evaluated 254 0xFFFF 0 255 = (false, 0x00FE) ∧
      evaluated 255 0xFEFF 8 0 = (true, 0xFF00) ∧ evaluated 200 0x0105 0 10 = (true, 0x0106) ∧
      evaluated 255 0xFFFE 0 0 = (true, 0xFFFF) := by decide

/-- R164's worked example: 1 | 31, 29, 30 with REF[1] = 0x00A0 gives 0x011E and REF[1] = 0x00A1. -/
theorem test_scan_median :
    reply (issue 0x5100 (twoRef 0x00A0 (answers [1, 31, 29, 30]))) = some (0, 0x011E) ∧
      shown (fun t => t.ref 1) (issue 0x5100 (twoRef 0x00A0 (answers [1, 31, 29, 30]))) = some 0x00A1 := by decide

/-- P2 of spec/95_test_vectors.md, action 2: 5 | 20, 21, 20 after reset gives 0x0114 and REF[0] = 0x0050. -/
theorem test_scan_average :
    reply (issue 0x5000 (two (answers [5, 20, 21, 20]))) = some (0, 0x0114) ∧
      shown (fun t => t.ref 0) (issue 0x5000 (two (answers [5, 20, 21, 20]))) = some 0x0050 := by decide

/-- P1 of spec/95_test_vectors.md, action 1: the reset value; R51: another channel's reference is not read. -/
theorem test_rdref :
    reply (issue 0x6000 (twoRef 0x00A1 [])) = some (0, 0xFFFF) ∧
      reply (issue 0x6100 (twoRef 0x00A1 [])) = some (0, 0x00A1) := by decide

/-- P3 of spec/95_test_vectors.md, actions 4, 6 and 8. -/
theorem test_rejections :
    reply (issue 0x0000 (two [])) = some (3, 0) ∧ reply (issue 0x1500 (two [])) = some (2, 0) ∧
      reply (issue 0x2F00 (two [])) = some (2, 0) := by decide

/-- R230: while the block is busy the host has no move but reset. -/
theorem test_busy_refused :
    step { two [] with busy := true, host := [.command 0x6000] } = .refused .commandWhileBusy ∧
      step { two [] with busy := true, host := [.setOut 0 true] } = .refused .padWriteWhileBusy ∧
      shown State.busy (step { two [] with busy := true, host := [.reset] }) = some false := ⟨rfl, rfl, by decide⟩

/-- A command placed by withFetchWord runs as the first one after reset, whatever the straps are: RDREF and a reserved word. -/
theorem test_first_command :
    (∃ t, step (State.reset.withFetchWord 16 0x6000) = .next t) ∧
      decodeTableWord 16 0x6000 = some (.rdref 0) ∧
      reply (step (State.reset.withFetchWord 16 0x7000)) = some (3, 0) := ⟨⟨_, rfl⟩, by decide, by rfl⟩

/-! ### Witnesses: the hypotheses of the statements can be met -/

/-- `DecodeEncodeAgree`: both sides hold of a word and its command. -/
theorem witness_decode_encode :
    decode 16 0x2FFF = .ok (.avg 15 255) ∧ encode (.avg 15 255) = 0x2FFF ∧ (Instr.avg 15 255).wf 16 = true := by decide

/-- `DecoderChecksInOrder`: a word for each of its four rejecting lines and one that passes. -/
theorem witness_checks :
    decode 2 0x7000 = .error .illegalCmd ∧ decode 2 0x1001 = .error .illegalCmd ∧ decode 2 0x1200 = .error .badChannel ∧
      decode 2 0x2000 = .error .nZero ∧ decode 2 0x2001 = .ok (.avg 0 1) := by decide

/-- `OpcodeMapRows`: a word of a row with and one of a row without a reserved IMM. -/
theorem witness_rows : (0x1F00 : U16) &&& 0xF0FF = 0x1000 ∧ (0x2FFF : U16) &&& 0xF000 = 0x2000 := by decide

/-- `StepRunsDecodedCommand`, `EveryCommandGetsOneResponse`, `ResponseLayouts`. -/
theorem witness_decoded :
    ∃ s : State, s.busy = false ∧ s.host = [.command 0x1100] ∧ decode s.nch 0x1100 = .ok (.meas 1) ∧
      (Instr.meas 1).wf s.nch = true := ⟨{ two [] with host := [.command 0x1100] }, by decide⟩

/-- `ResponseLayouts`, `ReadsPerCommandAreBounded`: every command with legal operands, on well-formed straps. -/
theorem witness_layouts :
    ([.meas 0, .avg 0 1, .avg 1 255, .med3 1, .eval 0 0, .scan 0, .rdref 1] : List Instr).all
      (fun i => i.wf (two []).nch && ((two []).cfg i.chan).wf) = true := by decide

/-- `RejectedCommandChangesNothing`, for each of the three reasons. -/
theorem witness_rejected :
    (two []).busy = false ∧ decode (two []).nch 0x0000 = .error .illegalCmd ∧
      decode (two []).nch 0x6200 = .error .badChannel ∧ decode (two []).nch 0x2100 = .error .nZero := by decide

/-- `IllegalOperandsAreRejected`: the first channel that does not exist, and a count of zero. -/
theorem witness_illegal_operands :
    (Instr.rdref 2).wf (two []).nch = false ∧ (Instr.avg 1 0).wf (two []).nch = false := by decide

/-- `StepStopsOnlyWithoutAMove`: each case of the right side occurs; `noSuchPad` begins at channel NCH. -/
theorem witness_stops :
    step { two [] with busy := true, host := [.resetDuring 0x1000] } = .refused .commandWhileBusy ∧
      step { two [] with busy := true, host := [.setOut 5 true] } = .refused .padWriteWhileBusy ∧
      step { two [] with host := [.setOut 2 true] } = .refused .noSuchPad ∧
      shown State.busy (step { two [] with host := [.setOut 1 true] }) = some false := ⟨rfl, rfl, rfl, by decide⟩

/-- `IdleBlockHoldsItsState`: right after reset the host has issued nothing. -/
theorem witness_idle : State.reset.host = [] := rfl

/-- The statements with `c.toNat < s.nch` alone: the last channel. -/
theorem witness_channel : ∃ (s : State) (c : U4), c.toNat < s.nch ∧ c = 1 := ⟨two [], 1, by decide⟩

/-- The same with every channel the encoding admits. -/
theorem witness_sixteen :
    ∃ (s : State) (c : U4), c.toNat < s.nch ∧ c = 15 := ⟨start (List.replicate 16 (medCfg 0 0)) [], 15, by decide⟩

/-- `OracleAdmitsEveryBitSequence`: read 2 of execution 1. -/
theorem witness_answers :
    ([[false, true]] : List (List Bool))[0]? = some [false, true] ∧ ([false, true] : List Bool)[1]? = some true := by decide

/-- `MeasAnswersTheChargeTime`, first clause at its lower end: the first read is high. -/
theorem witness_meas_first :
    ∃ s : State, (0 : U4).toNat < s.nch ∧ s.env.levelOf 0 1 1 = true ∧
      ∀ i, 1 ≤ i → i < 1 → s.env.levelOf 0 1 i = false :=
  ⟨two (answers [0]), by decide, by decide, fun i h1 h2 => by omega⟩

/-- The read at which an environment first answers high, with a script of `v` low bits and a high one. -/
theorem level_answers (gs : List ChanCfg) (v : Nat) (i : Nat) (h1 : 1 ≤ i) (h2 : i ≤ v + 1) :
    (start gs (answers [v])).env.levelOf 0 1 i = decide (i = v + 1) := by
  rcases Nat.lt_or_ge i (v + 1) with h | h
  · have h3 : i - 1 < v := by omega
    have h4 : i ≠ v + 1 := by omega
    simp [start, answers, Env.levelOf, List.getElem?_append, h3, h4]
  · have h3 : i = v + 1 := by omega
    simp [start, answers, Env.levelOf, h3]

/-- `MeasAnswersTheChargeTime`, first clause at its upper end: the first high read is read 255. -/
theorem witness_meas_last :
    ∃ s : State, (0 : U4).toNat < s.nch ∧ s.env.levelOf 0 1 255 = true ∧
      ∀ i, 1 ≤ i → i < 255 → s.env.levelOf 0 1 i = false := by
  refine ⟨start [medCfg 0 0] (answers [254]), by decide, ?_, fun i h1 h2 => ?_⟩
  · rw [level_answers _ _ _ (by omega) (by omega)]
    rfl
  · rw [level_answers _ _ _ h1 (by omega)]
    simpa using by omega

/-- `MeasAnswersTheChargeTime`, second clause: no read up to 255 is high. -/
theorem witness_meas_never :
    ∃ s : State, (0 : U4).toNat < s.nch ∧ ∀ i, 1 ≤ i → i ≤ 255 → s.env.levelOf 0 1 i = false := by
  refine ⟨start [medCfg 0 0] (answers [255]), by decide, fun i h1 h2 => ?_⟩
  rw [level_answers _ _ _ h1 (by omega)]
  simpa using by omega

/-- `ChargeModelGivesTheSample`: the environment of a script, at the two ends of K and for `never`. -/
theorem witness_charge_model :
    ∃ s : State, (0 : U4).toNat < s.nch ∧ ChargeModel [some 1, some 255, some 256, none] s.env :=
  ⟨start [medCfg 0 0] (chargeScript [some 1, some 255, some 256, none]), by decide, chargeModel_of_script _ _ _⟩

/-- `AvgAnswersTheTruncatedMean`, `AvgLiesBetweenTheSamples`: the live samples 10, 11, 10 lie between 10 and 11. -/
theorem witness_avg :
    ∃ s : State, (0 : U4).toNat < s.nch ∧ (3 : U8) ≠ 0 ∧
      ∀ j, j < (3 : U8).toNat → 10 ≤ (s.env.sample 0 (j + 2)).toNat ∧ (s.env.sample 0 (j + 2)).toNat ≤ 11 := by
  have hk : ∀ (m k : Nat), 1 ≤ k → k ≤ 255 →
      (∀ i, 1 ≤ i → i < k → (two (answers [3, 10, 11, 10])).env.levelOf 0 m i = false) →
      (two (answers [3, 10, 11, 10])).env.levelOf 0 m k = true →
      ((two (answers [3, 10, 11, 10])).env.sample 0 m).toNat = k - 1 := by
    intro m k h1 h2 h3 h4
    rw [Env.sample_eq, Env.lows_of_first_high h1 h2 h4 h3, BitVec.toNat_ofNat]
    omega
  have h2 := hk 2 11 (by omega) (by omega) (fun i _ _ => by interval_cases i <;> rfl) rfl
  have h3 := hk 3 12 (by omega) (by omega) (fun i _ _ => by interval_cases i <;> rfl) rfl
  have h4 := hk 4 11 (by omega) (by omega) (fun i _ _ => by interval_cases i <;> rfl) rfl
  refine ⟨two (answers [3, 10, 11, 10]), by decide, by decide, fun j hj => ?_⟩
  have hj' : j < 3 := hj
  interval_cases j <;> simp only [Nat.zero_add, Nat.reduceAdd] <;> omega

/-- `AccumulatorNeverWraps`: the largest sample count. -/
theorem witness_accumulator : (255 : U8).toNat ≤ 255 := by decide

/-- `EvalDecidesAndUpdatesTheReference`, `ReferenceLaws`, `ScanIsFilterThenEval`: a good strap of either filter; a sample that
snaps, one that cools down, and the reset reference. -/
theorem witness_eval :
    (1 : U4).toNat < (twoRef 0x00A0 []).nch ∧ ((twoRef 0x00A0 []).cfg 1).wf = true ∧ ((twoRef 0x00A0 []).cfg 0).wf = true ∧
      (baseline ((twoRef 0x00A0 []).ref 1) 4).toNat = 10 ∧ (two []).ref 1 = 0xFFFF := by decide

/-- `FirstEvaluationCalibrates`: a channel right after reset. -/
theorem witness_first_eval : (1 : U4).toNat < (two []).nch ∧ ((two []).cfg 1).wf = true ∧ (two []).ref 1 = 0xFFFF := by decide

/-- `CoolDownsRaiseTheBaselineSlowly`: seventeen evaluations on a reference just snapped to 10, OFFSET = 4; the first sixteen
samples need to be above 10, the last one, at the raised baseline, above 11. -/
theorem witness_cool_downs :
    ∃ (s : State) (ys : List U8), ys = List.replicate 15 11 ++ [200, 12] ∧ (1 : U4).toNat < s.nch ∧ (s.cfg 1).wf = true ∧
      s.busy = false ∧ s.host = ys.map (fun y => .command (encode (.eval 1 y))) ∧
      (s.ref 1).toNat = (10 : U8).toNat * 2 ^ (s.cfg 1).offset.toNat ∧
      ∀ i y, ys[i]? = some y → (10 : U8).toNat + i / 2 ^ (s.cfg 1).offset.toNat < y.toNat := by
  refine ⟨{ twoRef 0x00A0 [] with
      host := (List.replicate 15 11 ++ [200, 12]).map (fun y => .command (encode (.eval 1 y))) },
    _, rfl, by decide, by decide, by decide, rfl, by decide, fun i y h => ?_⟩
  have hi : i < 17 := (List.getElem?_eq_some_iff.mp h).1
  revert h
  interval_cases i <;> intro h <;> cases h <;> decide

/-- `LargestThresholdNeverTouches`. -/
theorem witness_largest_threshold :
    (0 : U4).toNat < (start [medCfg 0 255] []).nch ∧ ((start [medCfg 0 255] []).cfg 0).thresh = 255 := by decide

/-- `SamplingFrame`, `ScanFrame`, `EvalFrame`: a command that is executed and one that is rejected, both with a next state. -/
theorem witness_frames :
    (∃ t, exec (.meas 1) (two []) = .next t) ∧ (∃ t, exec (.meas 2) (two []) = .next t) ∧
      (∃ t, exec (.scan 1) (two []) = .next t) ∧ (∃ t, exec (.scan 2) (two []) = .next t) ∧
      (∃ t, exec (.eval 1 0) (two []) = .next t) ∧ (∃ t, exec (.eval 2 0) (two []) = .next t) :=
  ⟨⟨_, rfl⟩, ⟨_, rfl⟩, ⟨_, rfl⟩, ⟨_, rfl⟩, ⟨_, rfl⟩, ⟨_, rfl⟩⟩

/-- `ChannelsAreIndependent`: two machines that differ in another channel's strap and reference. -/
theorem witness_independent :
    ∃ s₁ s₂ : State, s₁ ≠ s₂ ∧ (Instr.scan 1).wf s₁.nch = true ∧ (Instr.scan 1).wf s₂.nch = true ∧
      s₁.cfg 1 = s₂.cfg 1 ∧ s₁.ref 1 = s₂.ref 1 ∧
      ∀ m j, 1 ≤ m → 1 ≤ j → j ≤ 255 → s₁.env.levelOf 1 m j = s₂.env.levelOf 1 m j :=
  ⟨start [medCfg 0 0, medCfg 4 4] [], start [medCfg 1 1, medCfg 4 4] [], by decide, by decide, by decide, by decide,
    by decide, fun _ _ _ _ _ => rfl⟩

/-- `OnlyEvaluateWritesTheReference`, `StrapsNeverChange`: a step that changes a reference. -/
theorem witness_reference_written :
    ∃ s t : State, step s = .next t ∧ t.ref 0 ≠ s.ref 0 :=
  ⟨{ two [] with host := [.command 0x400A] }, _, rfl, by decide⟩

/-- `ResetMeetsTheInvariant`, `StepKeepsTheInvariant`, `HostCycleCompletes`: legal straps, and a good state that steps. -/
theorem witness_invariant :
    strapsWf [avgCfg 3 2 3, medCfg 4 4] = true ∧ (two []).inv = true ∧
      ∃ s t : State, s.inv = true ∧ step s = .next t :=
  ⟨by decide, by decide, { two [] with host := [.command 0x400A] }, _, by decide, rfl⟩

/-- `EveryRunEndsQuiet`: a run of a pad write, a rejected word and a command. -/
theorem witness_run :
    ∃ (acts : List HostAction) (t : State), acts = [.command 0x0000, .command 0x6000] ∧
      Host.Core.run Sys2Proof.core 2 { State.reset with host := acts } = .next t :=
  ⟨_, _, rfl, rfl⟩

/-- `ResetEstablishesTheTable`: a reset between commands and one in a command's place. -/
theorem witness_reset :
    (∃ s : State, s.host = [.reset] ∧ s.busy = true) ∧
      ∃ s : State, s.host = [.resetDuring 0x1000] ∧ s.busy = false :=
  ⟨⟨{ two [] with busy := true, host := [.reset] }, rfl, rfl⟩, { two [] with host := [.resetDuring 0x1000] }, rfl, rfl⟩

/-- `HostSetOutWritesTheLatch`: the last channel's pad. -/
theorem witness_set_out :
    ∃ s : State, s.busy = false ∧ s.host = [.setOut 1 true] ∧ (1 : U4).toNat < s.nch :=
  ⟨{ two [] with host := [.setOut 1 true] }, by decide⟩

/-- `HostClearDrivesEveryLatchLow`: sixteen channels, the most there can be. -/
theorem witness_host_clear :
    ∃ s : State, s.busy = false ∧ s.nch ≤ 16 ∧ s.nch = 16 ∧ s.host = hostClear s.nch ++ [] :=
  ⟨{ start (List.replicate 16 (medCfg 0 0)) [] with host := hostClear 16 }, by decide⟩

end Sys2Proof.Tests
end

