-- ==== Sys2Proof/Proofs/Straps.lean ====
section
/-!
SUPPORT. The straps are constants of the integrator (spec/00_scope.md R5, spec/10_state.md R25): every operation that writes a
channel's record keeps its `cfg`, hence so does every command body, every action of the host and every step.
-/

namespace Sys2Proof.Machine

/-! ### The list of straps under each operation -/

/-- Every change to a channel's record that keeps its strap keeps the list of straps. -/
theorem map_cfg_modify {f : Channel → Channel} (hf : ∀ ch, (f ch).cfg = ch.cfg) (l : List Channel) (k : Nat) :
    (l.modify k f).map Channel.cfg = l.map Channel.cfg := by
  apply List.ext_getElem?
  intro j
  simp only [List.getElem?_map, List.getElem?_modify]
  cases l[j]? with
  | none => simp
  | some ch => by_cases hk : k = j <;> simp [hk, hf]

/-- A write of a reference (R20). -/
theorem State.setRef_straps (c : U4) (v : U16) (s : State) :
    (s.setRef c v).chans.map Channel.cfg = s.chans.map Channel.cfg := by
  rw [State.setRef_chans, map_cfg_modify]
  exact fun _ => rfl

/-- A row of measurements (R115). -/
theorem measureTimes_straps (c : U4) (n : Nat) (s : State) :
    (measureTimes c n s).chans.map Channel.cfg = s.chans.map Channel.cfg := by
  cases n with
  | zero => rfl
  | succ n =>
    rw [measureTimes_succ, map_cfg_modify]
    exact fun _ => rfl

/-- The evaluation writes one reference and nothing else (R160). -/
theorem evaluate_straps (c : U4) (x : U8) (s : State) :
    (evaluate c x s).2.chans.map Channel.cfg = s.chans.map Channel.cfg := by
  rw [evaluate_eq]
  exact State.setRef_straps _ _ _

/-- The configured filter is a row of measurements (R164). -/
theorem configuredFilter_straps (c : U4) (s : State) :
    (configuredFilter c s).2.chans.map Channel.cfg = s.chans.map Channel.cfg := by
  obtain ⟨n, hn⟩ := configuredFilter_measures c s
  rw [hn, measureTimes_straps]

/-- The host's write of a pad (R229). -/
theorem hostSetOut_straps (c : U4) (b : Bool) (s : State) :
    (hostSetOut c b s).chans.map Channel.cfg = s.chans.map Channel.cfg := by
  rw [hostSetOut_chans, map_cfg_modify]
  exact fun _ => rfl

/-- Reset builds every channel anew from its strap (R30). -/
theorem assertReset_straps (s : State) :
    (assertReset s).chans.map Channel.cfg = s.chans.map Channel.cfg := by
  simp [assertReset, State.resetWith, Channel.atReset, Function.comp_def]

/-! ### Commands, host actions, steps -/

/-- What a command does once its operands are legal: measurements, an evaluation, a response, each of which keeps the straps.
No count is excluded: AVG with n = 0 measures too. -/
theorem commandBody_straps (i : Instr) (s : State) :
    (commandBody i s).chans.map Channel.cfg = s.chans.map Channel.cfg := by
  cases i with
  | meas c => rw [commandBody_meas, respond_chans, measureTimes_straps]
  | avg c n =>
    show (respond _ (average c n s).2).chans.map Channel.cfg = _
    rw [respond_chans, average_state, measureTimes_straps]
  | med3 c => rw [commandBody_med3, respond_chans, measureTimes_straps]
  | eval c x => rw [commandBody_eval, respond_chans, evaluate_straps]
  | scan c => rw [commandBody_scan, respond_chans, evaluate_straps, configuredFilter_straps]
  | rdref c => rw [commandBody_rdref, respond_chans]

/-- The four things an action of the host can be: a rejected word, an executed command, a pad write, a reset. -/
theorem act_straps {a : HostAction} {s t : State} (h : act a s = .next t) :
    t.chans.map Channel.cfg = s.chans.map Channel.cfg := by
  obtain ⟨w, r, -, -, -, rfl⟩ | ⟨w, i, -, -, -, rfl⟩ | ⟨c, b, -, -, -, rfl⟩ | ⟨-, rfl⟩ := act_cases h
  · rw [reject_chans, accept_chans]
  · rw [commandBody_straps, accept_chans]
  · exact hostSetOut_straps c b s
  · exact assertReset_straps s

/-- Settles O38: an idle step changes nothing, and every action of the host keeps the straps. -/
theorem strapsNeverChange : Obligations.StrapsNeverChange := by
  intro s t h
  obtain ⟨-, rfl⟩ | ⟨a, rest, -, hact⟩ := step_cases h
  · rfl
  · exact act_straps (s := { s with host := rest }) hact

end Sys2Proof.Machine
end

