-- ==== Sys2Proof/Proofs/Reference.lean ====
section
/-!
SUPPORT. The reference register (spec/10_state.md R20, R21): its new value under an evaluation, in numbers; which commands can
write it; and the largest threshold (R25), under which no evaluation decides true.
-/

namespace Sys2Proof.Machine

/-! ### The new reference in numbers -/

/-- The baseline of the reset value is the largest there is, whatever the offset (R21 (d)). -/
theorem baseline_resetRef {o : U4} (h : o.toNat ≤ 8) : (baseline 0xFFFF o).toNat = 255 := by
  rw [baseline_toNat h]
  generalize o.toNat = k at h
  interval_cases k <;> rfl

/-- A reference that fits 8 + OFFSET bits loses nothing when its shifted value is truncated (R21 (c)). -/
theorem shiftedRef_le {r k : Nat} (h : r < 2 ^ (8 + k)) : r / 2 ^ k ≤ 255 := by
  have : r / 2 ^ k < 2 ^ 8 := Nat.div_lt_of_lt_mul (by rwa [← Nat.pow_add, Nat.add_comm k])
  omega

/-- A snap gives the sample, shifted (R161 step 4). -/
theorem nextRef_snap_toNat {ref : U16} {o : U4} {x : U8} (ho : o.toNat ≤ 8)
    (h : x.toNat ≤ (baseline ref o).toNat) :
    (nextRef ref o x (baseline ref o)).toNat = x.toNat * 2 ^ o.toNat := by
  rw [nextRef_snap h, snapValue_toNat ho]

/-- A snap never raises the reference (R21 (a)): the sample is at most the shifted reference. -/
theorem nextRef_snap_le {ref : U16} {o : U4} {x : U8} (ho : o.toNat ≤ 8)
    (h : x.toNat ≤ (baseline ref o).toNat) :
    (nextRef ref o x (baseline ref o)).toNat ≤ ref.toNat := by
  have hx : x.toNat ≤ ref.toNat / 2 ^ o.toNat :=
    (baseline_toNat ho ▸ h).trans (Nat.mod_le _ _)
  calc (nextRef ref o x (baseline ref o)).toNat
      = x.toNat * 2 ^ o.toNat := nextRef_snap_toNat ho h
    _ ≤ ref.toNat / 2 ^ o.toNat * 2 ^ o.toNat := Nat.mul_le_mul_right _ hx
    _ ≤ ref.toNat := Nat.div_mul_le_self _ _

/-- A cool-down never starts from the reset value (R21 (b)): no sample is above its baseline, 255. -/
theorem ne_resetRef_of_cool {ref : U16} {o : U4} {x : U8} (ho : o.toNat ≤ 8)
    (h : (baseline ref o).toNat < x.toNat) : ref ≠ 0xFFFF := by
  rintro rfl
  have := x.isLt
  rw [baseline_resetRef ho] at h
  omega

/-- A cool-down adds exactly one and never wraps (R21 (b)). -/
theorem nextRef_cool_toNat {ref : U16} {o : U4} {x : U8} (ho : o.toNat ≤ 8)
    (h : (baseline ref o).toNat < x.toNat) :
    (nextRef ref o x (baseline ref o)).toNat = ref.toNat + 1 := by
  have hne : ref.toNat ≠ 65535 := fun e => ne_resetRef_of_cool ho h (BitVec.eq_of_toNat_eq e)
  have hlt := ref.isLt
  rw [nextRef_cool h, BitVec.toNat_add]
  exact Nat.mod_eq_of_lt (show ref.toNat + 1 < 65536 by omega)

/-- From the reset value or a value that fits 8 + OFFSET bits, the new reference fits them (R21 (c)). -/
theorem nextRef_lt {ref : U16} {o : U4} {x : U8} (ho : o.toNat ≤ 8)
    (href : ref = 0xFFFF ∨ ref.toNat < 2 ^ (8 + o.toNat)) :
    (nextRef ref o x (baseline ref o)).toNat < 2 ^ (8 + o.toNat) := by
  have hx : x.toNat < 2 ^ 8 := x.isLt
  have hsnap : x.toNat * 2 ^ o.toNat < 2 ^ (8 + o.toNat) := by
    rw [Nat.pow_add]
    exact Nat.mul_lt_mul_of_pos_right hx (Nat.two_pow_pos _)
  rcases Nat.lt_or_ge (baseline ref o).toNat x.toNat with hcool | hle
  · have hlt : ref.toNat < 2 ^ (8 + o.toNat) := href.resolve_left (ne_resetRef_of_cool ho hcool)
    have hdiv : ref.toNat / 2 ^ o.toNat < x.toNat := by
      have := shiftedRef_le hlt
      rw [baseline_toNat ho] at hcool
      omega
    have hbelow : ref.toNat < x.toNat * 2 ^ o.toNat := (Nat.div_lt_iff_lt_mul (Nat.two_pow_pos _)).mp hdiv
    rw [nextRef_cool_toNat ho hcool]
    omega
  · rwa [nextRef_snap_toNat ho hle]

/-! ### The reference under a command -/

/-- The evaluation writes `nextRef` to its own channel (R160). -/
theorem evaluate_ref {s : State} {c : U4} (h : c.toNat < s.nch) (x : U8) (d : U4) :
    (evaluate c x s).2.ref d =
      if d = c then nextRef (s.ref c) (s.cfg c).offset x (baseline (s.ref c) (s.cfg c).offset) else s.ref d := by
  rw [evaluate_eq]
  exact State.setRef_ref h _ _

/-- The configured filter is a row of measurements, so it keeps what they keep. -/
@[simp] theorem configuredFilter_ref (c : U4) (s : State) (d : U4) :
    (configuredFilter c s).2.ref d = s.ref d := by
  obtain ⟨n, hn⟩ := configuredFilter_measures c s
  rw [hn, measureTimes_ref]

@[simp] theorem configuredFilter_cfg (c : U4) (s : State) (d : U4) :
    (configuredFilter c s).2.cfg d = s.cfg d := by
  obtain ⟨n, hn⟩ := configuredFilter_measures c s
  rw [hn, measureTimes_cfg]

@[simp] theorem configuredFilter_nch (c : U4) (s : State) : (configuredFilter c s).2.nch = s.nch := by
  obtain ⟨n, hn⟩ := configuredFilter_measures c s
  rw [hn, measureTimes_nch]

@[simp] theorem configuredFilter_responses (c : U4) (s : State) :
    (configuredFilter c s).2.responses = s.responses := by
  obtain ⟨n, hn⟩ := configuredFilter_measures c s
  rw [hn, measureTimes_responses]

@[simp] theorem evaluate_responses (c : U4) (x : U8) (s : State) :
    (evaluate c x s).2.responses = s.responses := rfl

/-- EVAL and SCAN on an existing channel have legal operands. -/
theorem Instr.eval_wf {nch : Nat} {c : U4} {x : U8} (h : c.toNat < nch) : (Instr.eval c x).wf nch = true :=
  (Instr.wf_iff _ _).mpr ⟨h, rfl⟩

theorem Instr.scan_wf {nch : Nat} {c : U4} (h : c.toNat < nch) : (Instr.scan c).wf nch = true :=
  (Instr.wf_iff _ _).mpr ⟨h, rfl⟩

/-- Settles O27: the laws of `nextRef`, for the reference that EVAL writes. -/
theorem referenceLaws : Obligations.ReferenceLaws := by
  intro s c x hc hwf
  obtain ⟨ho, -⟩ := (ChanCfg.wf_iff _).mp hwf
  refine ⟨_, exec_of_wf (Instr.eval_wf hc), ?_⟩
  have href : (commandBody (.eval c x) (accept s)).ref c =
      nextRef (s.ref c) (s.cfg c).offset x (baseline (s.ref c) (s.cfg c).offset) := by
    rw [commandBody_eval, respond_ref, evaluate_ref (by simpa using hc), if_pos rfl, accept_ref, accept_cfg]
  rw [href, ← baseline_toNat ho]
  refine ⟨fun hle => ⟨nextRef_snap_toNat ho hle, nextRef_snap_le ho hle⟩,
    fun hlt => ⟨ne_resetRef_of_cool ho hlt, nextRef_cool_toNat ho hlt⟩, nextRef_lt ho, shiftedRef_le, fun hreset => ?_⟩
  have hx := x.isLt
  rw [hreset, baseline_resetRef ho]
  exact ⟨rfl, by omega⟩

/-! ### Which commands write a reference -/

/-- A command that changes `REF[d]` is EVAL or SCAN on channel `d` (R20). -/
theorem eval_or_scan_of_commandBody_ref_ne {i : Instr} {s : State} {d : U4} (hwf : i.wf s.nch = true)
    (h : (commandBody i s).ref d ≠ s.ref d) : (∃ x, i = .eval d x) ∨ i = .scan d := by
  have hc : i.chan.toNat < s.nch := ((Instr.wf_iff _ _).mp hwf).1
  cases i with
  | meas c => simp [commandBody_meas] at h
  | avg c n =>
    refine absurd ?_ h
    show (respond _ (average c n s).2).ref d = s.ref d
    rw [respond_ref, average_state, measureTimes_ref]
  | med3 c => simp [commandBody_med3] at h
  | eval c x =>
    rw [commandBody_eval, respond_ref, evaluate_ref (c := c) hc] at h
    obtain rfl : d = c := by
      by_contra hd
      exact h (if_neg hd)
    exact .inl ⟨x, rfl⟩
  | scan c =>
    rw [commandBody_scan, respond_ref, evaluate_ref (c := c) ((configuredFilter_nch c s).symm ▸ hc)] at h
    obtain rfl : d = c := by
      by_contra hd
      simp [hd] at h
    exact .inr rfl
  | rdref c => simp [commandBody_rdref] at h

/-- Settles O37: of the host's actions a rejected word and a pad write change no reference, a command changes one only by EVAL
or SCAN on its own channel, and the rest are resets. -/
theorem onlyEvaluateWritesTheReference : Obligations.OnlyEvaluateWritesTheReference := by
  intro s t d hstep hne
  obtain ⟨-, rfl⟩ | ⟨a, rest, hhost, hact⟩ := step_cases hstep
  · exact absurd rfl hne
  refine ⟨a, rest, hhost, ?_⟩
  obtain ⟨w, r, -, -, -, rfl⟩ | ⟨w, i, ha, -, hdec, rfl⟩ | ⟨c, b, -, -, -, rfl⟩ | ⟨ha | ⟨w, ha, -⟩, -⟩ := act_cases hact
  · exact absurd rfl hne
  · obtain ⟨x, rfl⟩ | rfl := eval_or_scan_of_commandBody_ref_ne (s := accept { s with host := rest })
      (decode_ok_wf hdec).2 hne
    · exact .inr (.inr ⟨w, ha, .inl ⟨x, hdec⟩⟩)
    · exact .inr (.inr ⟨w, ha, .inr hdec⟩)
  · exact absurd (State.setPadOut_ref c b { s with host := rest } d) hne
  · exact .inl ha
  · exact .inr (.inl ⟨w, ha⟩)

/-! ### The largest threshold -/

/-- No difference of 8-bit numbers is above 255 (R25). -/
theorem touched_largest (x b : U8) : touched x b 255 = false := by
  have h : ¬ touched x b 255 = true := by
    rw [touched_iff, show (255 : U8).toNat = 255 from rfl]
    omega
  simpa using h

/-- With THRESH = 255 the evaluation never decides true (R25). -/
theorem evaluate_largest {s : State} {c : U4} (h : (s.cfg c).thresh = 255) (x : U8) :
    (evaluate c x s).1 = false := by
  rw [evaluate_eq, h]
  exact touched_largest _ _

/-- Settles O30: the decision is false, so VAL of EVAL is 0 and VAL of SCAN is the filtered sample. -/
theorem largestThresholdNeverTouches : Obligations.LargestThresholdNeverTouches := by
  intro s c hc hthresh
  refine ⟨fun x => ⟨_, exec_of_wf (Instr.eval_wf hc), ?_⟩,
    _, scanValue false (configuredFilter c (accept s)).1, exec_of_wf (Instr.scan_wf hc), ?_, ?_⟩
  · rw [commandBody_eval, evaluate_largest (s := accept s) hthresh]
    rfl
  · rw [commandBody_scan, evaluate_largest (by simpa using hthresh)]
    simp
  · rw [scanValue_toNat]
    exact (configuredFilter c (accept s)).1.isLt

end Sys2Proof.Machine
end

