-- ==== Sys2Proof/Proofs/Reset.lean ====
section
/-!
SUPPORT. What reset leaves (spec/10_state.md R30): the table of R30 on every channel, and the invariant, for every legal list of
straps.
-/

namespace Sys2Proof.Machine

/-! ### The table of R30 -/

/-- Reset builds each channel from its strap. -/
theorem assertReset_chan {s : State} {c : U4} (h : c.toNat < s.nch) :
    (assertReset s).chans[chanIndex c]? = some (Channel.atReset (s.cfg c)) := by
  obtain ⟨ch, hc⟩ := State.chan_of_lt h
  simp [assertReset, State.resetWith, hc, State.cfg_of_chan hc]

@[simp] theorem assertReset_nch (s : State) : (assertReset s).nch = s.nch := by
  simp [State.nch, assertReset, State.resetWith]

/-- Reset, and a reset in the place of a command's response, is `assertReset` (R30). -/
theorem act_reset {a : HostAction} {s : State} (h : a = .reset ∨ (s.busy = false ∧ ∃ w, a = .resetDuring w)) :
    act a s = .next (assertReset s) := by
  obtain rfl | ⟨hb, w, rfl⟩ := h
  · rfl
  · simp [act, hb]

/-- Settles O42: both ways to assert reset lead to `assertReset`, whose channels are at the values of the table. -/
theorem resetEstablishesTheTable : Obligations.ResetEstablishesTheTable := by
  intro s a rest hhost ha
  refine ⟨_, (step_cons hhost).trans (act_reset ha), assertReset_nch _, fun c hc => ?_, rfl, rfl, rfl, rfl⟩
  have hchan := assertReset_chan (s := { s with host := rest }) hc
  exact ⟨State.ref_of_chan hchan, State.padOut_of_chan hchan, State.padOe_of_chan hchan, State.cfg_of_chan hchan⟩

/-! ### Reset meets the invariant -/

/-- A legal configuration: 1 to 16 channels (R5), every strap well formed (R6). -/
theorem strapsWf_iff (gs : List ChanCfg) :
    strapsWf gs = true ↔ 1 ≤ gs.length ∧ gs.length ≤ 16 ∧ ∀ g ∈ gs, g.wf = true := by
  simp [strapsWf, and_assoc]

/-- The straps of the machine that leaves reset are legal, whatever the integrator chose (R6). -/
theorem Config.cfgOf_wf (c : Nat) : (Config.cfgOf c).wf = true := by
  have ho := (Config.offset c).isLt
  have hn := (Config.nsampPred c).isLt
  refine (ChanCfg.wf_iff _).mpr ⟨?_, fun h => ?_⟩
  · simp only [Config.cfgOf, BitVec.toNat_ofNat]
    omega
  · have hz : ((Config.nsampPred c).val + 1) % 2 ^ 8 = 0 := congrArg BitVec.toNat h
    omega

theorem Config.straps_wf : strapsWf Config.straps = true := by
  have hn := Config.nchPred.isLt
  refine (strapsWf_iff _).mpr ⟨?_, ?_, ?_⟩
  · simp [Config.straps]
  · simp only [Config.straps, List.length_map, List.length_range]
    omega
  · intro g hg
    obtain ⟨c, -, rfl⟩ := List.mem_map.mp hg
    exact Config.cfgOf_wf c

/-- A channel right after reset is in order when its strap is. -/
theorem Channel.atReset_ok {g : ChanCfg} (h : g.wf = true) : (Channel.atReset g).ok = true := by
  simp [Channel.atReset, Channel.ok, Channel.refOk, h]

theorem State.resetWith_inv {gs : List ChanCfg} (h : strapsWf gs = true) : (State.resetWith gs).inv = true := by
  obtain ⟨h1, h16, hwf⟩ := (strapsWf_iff gs).mp h
  have hlen : (State.resetWith gs).nch = gs.length := List.length_map _
  refine (State.inv_iff _).mpr ⟨hlen ▸ h1, hlen ▸ h16, fun ch hch => ?_, rfl, rfl, rfl, fun r hr => nomatch hr⟩
  obtain ⟨g, hg, rfl⟩ := List.mem_map.mp hch
  exact Channel.atReset_ok (hwf g hg)

/-- Settles O39: the straps of the machine that leaves reset are legal ones. -/
theorem resetMeetsTheInvariant : Obligations.ResetMeetsTheInvariant :=
  ⟨State.resetWith_inv Config.straps_wf, fun _ => State.resetWith_inv⟩

end Sys2Proof.Machine
end

