-- ==== Sys2Proof/Proofs/Invariant.lean ====
section
/-!
SUPPORT. Every step keeps the invariant (spec/10_state.md sections 1 to 7). A command passes through states that are busy, which
the invariant excludes, so the proof goes through `State.Sound`, the invariant without busy: it stays at every stage of a
command, and the response at the end makes it the invariant again.
-/

namespace Sys2Proof.Machine

/-! ### The invariant without busy -/

/-- The invariant of the machine, at any stage of a command outside a measurement. -/
structure State.Sound (s : State) : Prop where
  nch_pos : 1 ≤ s.nch
  nch_le : s.nch ≤ 16
  channels : ∀ ch ∈ s.chans, ch.ok = true
  crit : s.crit = false
  trace : traceScan .idle s.trace = some .idle
  responses : ∀ r ∈ s.responses, r.ok = true

theorem State.inv_iff_sound (s : State) : s.inv = true ↔ s.Sound ∧ s.busy = false := by
  rw [State.inv_iff]
  constructor
  · rintro ⟨h1, h16, hch, hcrit, hbusy, htrace, hresp⟩
    exact ⟨⟨h1, h16, hch, hcrit, htrace, hresp⟩, hbusy⟩
  · rintro ⟨⟨h1, h16, hch, hcrit, htrace, hresp⟩, hbusy⟩
    exact ⟨h1, h16, hch, hcrit, hbusy, htrace, hresp⟩

/-- A channel in order: its strap well formed, its pad an output, its reference in range (R21 (c)). -/
theorem Channel.ok_iff (ch : Channel) :
    ch.ok = true ↔ ch.cfg.wf = true ∧ ch.padOe = true ∧
      (ch.ref = 0xFFFF ∨ ch.ref.toNat < 2 ^ (8 + ch.cfg.offset.toNat)) := by
  simp [Channel.ok, Channel.refOk, and_assoc]

namespace State.Sound

variable {s : State}

/-- Whole measurements and pad writes appended to whole measurements and pad writes (R114). -/
theorem trace_append (h : s.Sound) {es : List Event} (hes : traceScan .idle es = some .idle) :
    traceScan .idle (s.trace ++ es) = some .idle := by
  rw [traceScan_append, h.trace, Option.bind_some, hes]

/-! ### What a command is made of -/

theorem accept (h : s.Sound) : (accept s).Sound :=
  ⟨h.nch_pos, h.nch_le, h.channels, h.crit, h.trace, h.responses⟩

/-- The host's remaining actions are no part of the invariant. -/
theorem withHost (h : s.Sound) (rest : List HostAction) : ({ s with host := rest } : State).Sound :=
  ⟨h.nch_pos, h.nch_le, h.channels, h.crit, h.trace, h.responses⟩

/-- A row of measurements leaves a driven pad, a closed critical region and whole measurements in the trace (R114, R115). -/
theorem measureTimes (h : s.Sound) (c : U4) (n : Nat) : (measureTimes c n s).Sound := by
  cases n with
  | zero => exact h
  | succ n =>
    refine ⟨by simpa using h.nch_pos, by simpa using h.nch_le, ?_, measureTimes_crit c n s, ?_,
      by simpa using h.responses⟩
    · rw [measureTimes_succ]
      refine channels_ok_modify h.channels fun ch _ hok => ?_
      obtain ⟨hwf, -, href⟩ := (Channel.ok_iff _).mp hok
      exact (Channel.ok_iff _).mpr ⟨hwf, rfl, href⟩
    · rw [measureTimes_trace]
      exact h.trace_append (traceScan_eventsOf c (n + 1) s.env)

theorem configuredFilter (h : s.Sound) (c : U4) : (configuredFilter c s).2.Sound := by
  obtain ⟨n, hn⟩ := configuredFilter_measures c s
  rw [hn]
  exact h.measureTimes c (n + 1)

/-- The evaluation keeps the reference of its channel in range (R21 (c)). -/
theorem evaluate (h : s.Sound) (c : U4) (x : U8) : (evaluate c x s).2.Sound := by
  rw [evaluate_eq]
  refine ⟨by simpa using h.nch_pos, by simpa using h.nch_le, ?_, h.crit, h.trace, h.responses⟩
  refine channels_ok_modify h.channels fun ch hch hok => ?_
  obtain ⟨hwf, hoe, href⟩ := (Channel.ok_iff _).mp hok
  obtain ⟨ho, -⟩ := (ChanCfg.wf_iff _).mp hwf
  rw [State.ref_of_chan hch, State.cfg_of_chan hch]
  exact (Channel.ok_iff _).mpr ⟨hwf, hoe, .inr (nextRef_lt ho href)⟩

/-- The response ends the command: from here the invariant holds again (R88). -/
theorem answer_inv (h : s.Sound) {r : Response} (hr : r.ok = true) : (answer r s).inv = true := by
  refine (State.inv_iff_sound _).mpr ⟨⟨h.nch_pos, h.nch_le, h.channels, h.crit, h.trace, ?_⟩, rfl⟩
  rw [answer_responses]
  exact List.forall_mem_append.mpr ⟨h.responses, List.forall_mem_singleton.mpr hr⟩

theorem respond_inv (h : s.Sound) (v : U16) : (respond v s).inv = true :=
  h.answer_inv (by simp [Response.ok])

theorem reject_inv (h : s.Sound) (r : Reject) : (reject r s).inv = true :=
  h.answer_inv (by simp [Response.ok])

/-- What a command does once its operands are legal: measurements, an evaluation, a response. -/
theorem commandBody_inv (h : s.Sound) (i : Instr) : (commandBody i s).inv = true := by
  cases i with
  | meas c =>
    rw [commandBody_meas]
    exact (h.measureTimes c 1).respond_inv _
  | avg c n =>
    refine respond_inv ?_ (sampleValue (average c n s).1)
    rw [average_state]
    exact h.measureTimes c (n.toNat + 1)
  | med3 c =>
    rw [commandBody_med3]
    exact (h.measureTimes c 4).respond_inv _
  | eval c x =>
    rw [commandBody_eval]
    exact (h.evaluate c x).respond_inv _
  | scan c =>
    rw [commandBody_scan]
    exact ((h.configuredFilter c).evaluate c _).respond_inv _
  | rdref c =>
    rw [commandBody_rdref]
    exact h.respond_inv _

/-! ### The host's own actions -/

/-- A pad write outside a command is a word of the trace's language by itself, and changes a latch only (R229). -/
theorem hostSetOut (h : s.Sound) (c : U4) (b : Bool) : (hostSetOut c b s).Sound := by
  refine ⟨by simpa using h.nch_pos, by simpa using h.nch_le, ?_, h.crit, h.trace_append rfl, h.responses⟩
  exact channels_ok_modify h.channels fun ch _ hok => hok

theorem straps_wf (h : s.Sound) : strapsWf (s.chans.map Channel.cfg) = true := by
  refine (strapsWf_iff _).mpr ⟨by simpa [State.nch] using h.nch_pos, by simpa [State.nch] using h.nch_le, fun g hg => ?_⟩
  obtain ⟨ch, hch, rfl⟩ := List.mem_map.mp hg
  exact ((Channel.ok_iff _).mp (h.channels ch hch)).1

/-- Reset is the machine after reset with the same straps, but for the record of responses (R30). -/
theorem assertReset_inv (h : s.Sound) : (assertReset s).inv = true := by
  obtain ⟨⟨h1, h16, hch, hcrit, htrace, -⟩, hbusy⟩ := (State.inv_iff_sound _).mp (State.resetWith_inv h.straps_wf)
  exact (State.inv_iff_sound _).mpr ⟨⟨h1, h16, hch, hcrit, htrace, h.responses⟩, hbusy⟩

end State.Sound

/-! ### Actions and steps -/

/-- The four things an action of the host can be: a rejected word, an executed command, a pad write, a reset. -/
theorem act_inv {a : HostAction} {s t : State} (hs : s.inv = true) (h : act a s = .next t) : t.inv = true := by
  obtain ⟨hsound, hbusy⟩ := (State.inv_iff_sound s).mp hs
  obtain ⟨w, r, -, -, -, rfl⟩ | ⟨w, i, -, -, -, rfl⟩ | ⟨c, b, -, -, -, rfl⟩ | ⟨-, rfl⟩ := act_cases h
  · exact hsound.accept.reject_inv r
  · exact hsound.accept.commandBody_inv i
  · exact (State.inv_iff_sound _).mpr ⟨hsound.hostSetOut c b, hbusy⟩
  · exact hsound.assertReset_inv

/-- Settles O40: an idle step changes nothing, and every action of the host keeps the invariant. -/
theorem stepKeepsTheInvariant : Obligations.StepKeepsTheInvariant := by
  intro s t hs hstep
  obtain ⟨-, rfl⟩ | ⟨a, rest, -, hact⟩ := step_cases hstep
  · exact hs
  · exact act_inv (s := { s with host := rest }) hs hact

end Sys2Proof.Machine
end

