-- ==== Sys2Proof/Proofs/Memory.lean ====
section
/-!
SUPPORT. The pins and the level oracle (spec/20_memory.md): the writing GPIO primitives (R56 to R58), a read of the level (R59),
the oracle (R60) and its premise ChargeModel (R61).
-/

namespace Sys2Proof.Machine

/-! ### The GPIO primitives and the oracle -/

/-- Settles O13: each primitive is one write of one pad bit and one event, which touches no pad or reference. -/
theorem gpioWritesOnePadBit : Obligations.GpioWritesOnePadBit := fun s c hc =>
  ⟨fun d => ⟨State.setPadOut_padOut hc false d, State.setPadOut_padOe c false s d, State.setPadOut_ref c false s d⟩,
    driveLow_trace c s,
    fun d => ⟨State.setPadOe_padOe hc false d, State.setPadOe_padOut c false s d, State.setPadOe_ref c false s d⟩,
    configureInput_trace c s,
    fun d => ⟨State.setPadOe_padOe hc true d, State.setPadOe_padOut c true s d, State.setPadOe_ref c true s d⟩,
    configureOutput_trace c s⟩

/-- Settles O14: the bit is the environment's, and the state after is the model's own counter and the event. -/
theorem readLevelChangesNoState : Obligations.ReadLevelChangesNoState := fun s c =>
  ⟨readLevel_bit c s, readLevel_state c s⟩

/-- An answer that stands in the script is the answer the environment gives, whatever the free draws are (R60). -/
theorem Env.levelOf_of_script {e : Env} {m i : Nat} {bits : List Bool} {b : Bool} (hm : e.script[m]? = some bits)
    (hi : bits[i]? = some b) (c : U4) : e.levelOf c (m + 1) (i + 1) = b := by
  simp [Env.levelOf, hm, hi]

/-- Settles O15: the environment that has the table as its script. -/
theorem oracleAdmitsEveryBitSequence : Obligations.OracleAdmitsEveryBitSequence := fun s answers =>
  ⟨{ s with env := { s.env with script := answers } }, rfl, fun c _ _ _ _ hm hi => Env.levelOf_of_script hm hi c⟩

/-! ### ChargeModel -/

/-- The coming execution returns the sample of K(1): the first high read is read `k`, where that is one of the 255 reads
(R61). -/
theorem ChargeModel.sample {k : Option Nat} {ks : List (Option Nat)} {e : Env} (h : ChargeModel (k :: ks) e) (c : U4) :
    e.sample c 1 = chargeSample k := by
  have hlevel : ∀ i, 1 ≤ i → i ≤ 255 → e.levelOf c 1 i = chargeLevel k i := fun i => h c 0 i k rfl
  rw [Env.sample_eq]
  cases k with
  | none =>
    rw [Env.lows_of_all_low hlevel]
    rfl
  | some k =>
    by_cases hk : k ≤ maxReads
    · -- K(1) = 0 is no different from K(1) = 1: read 1 is the first there is.
      have hfirst : e.lows c 1 = max k 1 - 1 := by
        refine Env.lows_of_first_high (by omega) (max_le hk (by omega)) ?_ fun i h1 hi => ?_
        · rw [hlevel _ (by omega) (max_le hk (by omega))]
          simp [chargeLevel]
        · rw [hlevel i h1 (hi.le.trans (max_le hk (by omega)))]
          simp only [chargeLevel, decide_eq_false_iff_not]
          omega
      rw [hfirst, chargeSample, if_pos hk]
      congr 1
      omega
    · rw [Env.lows_of_all_low, chargeSample, if_neg hk]
      · rfl
      · intro i h1 hi
        rw [hlevel i h1 hi]
        simpa [chargeLevel] using hi.trans_lt (not_le.mp hk)

/-- The rest of K holds for the executions after the coming one (R61). -/
theorem ChargeModel.next {k : Option Nat} {ks : List (Option Nat)} {e : Env} (h : ChargeModel (k :: ks) e) :
    ChargeModel ks e.next := by
  intro c m i k' hk h1 hi
  rw [Env.next_levelOf]
  exact h c (m + 1) i k' hk h1 hi

/-- Settles O19: MEAS answers the sample of the coming execution and leaves the environment one execution on. -/
theorem chargeModelGivesTheSample : Obligations.ChargeModelGivesTheSample := by
  intro s c k ks hc hmodel
  refine ⟨_, exec_of_wf ((Instr.wf_iff _ _).mpr ⟨hc, rfl⟩), ?_, ?_⟩
  · rw [commandBody_meas, respond_responses, measureTimes_responses, accept_env, hmodel.sample c]
    rfl
  · rw [commandBody_meas, respond_env, measureTimes_env, accept_env]
    exact hmodel.next

end Sys2Proof.Machine
end

