-- ==== Sys2Proof/Proofs/Independence.lean ====
section
/-!
SUPPORT. The channels are independent (spec/20_memory.md R71): the value a command answers and the reference it leaves, each
as one function of the state, and that both see the strap, the reference and the samples of the command's own channel only.
-/

namespace Sys2Proof.Machine

/-! ### What a command answers, and the reference it leaves -/

/-- VAL of a command with legal operands (R89). -/
def commandValue (i : Instr) (s : State) : U16 :=
  match i with
  | .meas c => sampleValue (s.env.sample c 1)
  | .avg c n => sampleValue (average c n s).1
  | .med3 c => sampleValue (median3 c s).1
  | .eval c x => evalValue (evaluate c x s).1
  | .scan c =>
    scanValue (evaluate c (configuredFilter c s).1 (configuredFilter c s).2).1 (configuredFilter c s).1
  | .rdref c => s.ref c

/-- The reference of its own channel that a command with legal operands leaves (R20). -/
def commandRef (i : Instr) (s : State) : U16 :=
  match i with
  | .eval c x => nextRef (s.ref c) (s.cfg c).offset x (baseline (s.ref c) (s.cfg c).offset)
  | .scan c =>
    nextRef (s.ref c) (s.cfg c).offset (configuredFilter c s).1 (baseline (s.ref c) (s.cfg c).offset)
  | .meas c => s.ref c
  | .avg c _ => s.ref c
  | .med3 c => s.ref c
  | .rdref c => s.ref c

/-- A command with legal operands gives one response, with status OK and the value of `commandValue` (R88). -/
theorem commandBody_responses (i : Instr) (s : State) :
    (commandBody i s).responses = s.responses ++ [{ st := statusOk, val := commandValue i s }] := by
  cases i with
  | meas c => rw [commandBody_meas, respond_responses, measureTimes_responses, commandValue]
  | avg c n =>
    show (respond _ (average c n s).2).responses = _
    rw [respond_responses, average_state, measureTimes_responses, commandValue]
  | med3 c =>
    rw [commandBody_med3, respond_responses, measureTimes_responses, commandValue, median3_eq]
  | eval c x => rw [commandBody_eval, respond_responses, evaluate_responses, commandValue]
  | scan c =>
    rw [commandBody_scan, respond_responses, evaluate_responses, configuredFilter_responses, commandValue]
  | rdref c => rw [commandBody_rdref, respond_responses, commandValue]

/-- A command on an existing channel leaves that channel's reference at `commandRef`. -/
theorem commandBody_ref {i : Instr} {s : State} (h : i.chan.toNat < s.nch) :
    (commandBody i s).ref i.chan = commandRef i s := by
  cases i with
  | meas c => rw [commandBody_meas, respond_ref, measureTimes_ref]; rfl
  | avg c n =>
    show (respond _ (average c n s).2).ref c = _
    rw [respond_ref, average_state, measureTimes_ref]
    rfl
  | med3 c => rw [commandBody_med3, respond_ref, measureTimes_ref]; rfl
  | eval c x =>
    rw [commandBody_eval, respond_ref, evaluate_ref (c := c) h]
    exact if_pos rfl
  | scan c =>
    rw [commandBody_scan, respond_ref, evaluate_ref (c := c) ((configuredFilter_nch c s).symm ▸ h),
      configuredFilter_ref, configuredFilter_cfg]
    exact if_pos rfl
  | rdref c => rw [commandBody_rdref, respond_ref]; rfl

/-! ### Independence of the channels -/

/-- All that a command on channel `c` can see of the state (R71): the strap, the reference and the samples of that channel. -/
structure SameChannel (c : U4) (s₁ s₂ : State) : Prop where
  cfg : s₁.cfg c = s₂.cfg c
  ref : s₁.ref c = s₂.ref c
  sample : ∀ m, s₁.env.sample c (m + 1) = s₂.env.sample c (m + 1)

namespace SameChannel

variable {c : U4} {s₁ s₂ : State}

/-- The same bits for the 255 reads of every execution give the same samples. -/
theorem of_levels (hcfg : s₁.cfg c = s₂.cfg c) (href : s₁.ref c = s₂.ref c)
    (hlevel : ∀ m j, 1 ≤ m → 1 ≤ j → j ≤ 255 → s₁.env.levelOf c m j = s₂.env.levelOf c m j) :
    SameChannel c s₁ s₂ :=
  ⟨hcfg, href, fun m => Env.sample_congr fun j => hlevel (m + 1) j (by omega)⟩

theorem accept (h : SameChannel c s₁ s₂) : SameChannel c (accept s₁) (accept s₂) :=
  ⟨h.cfg, h.ref, h.sample⟩

theorem sampleSum (h : SameChannel c s₁ s₂) (m n : Nat) :
    s₁.env.sampleSum c m n = s₂.env.sampleSum c m n := by
  induction n with
  | zero => rfl
  | succ n ih => rw [Env.sampleSum, Env.sampleSum, ih, h.sample]

/-- Also for n = 0, where the quotient is a free value of the accumulator. -/
theorem average (h : SameChannel c s₁ s₂) (n : U8) : (average c n s₁).1 = (average c n s₂).1 := by
  have he : ∀ s : State, (measureOnce c s).2.env = s.env.next := fun s => by rw [measureOnce_eq]
  simp only [Machine.average, sumSamples_eq, he, Env.sampleSum_next, h.sampleSum]

theorem median3 (h : SameChannel c s₁ s₂) : (median3 c s₁).1 = (median3 c s₂).1 := by
  rw [median3_eq, median3_eq, h.sample 1, h.sample 2, h.sample 3]

theorem configuredFilter (h : SameChannel c s₁ s₂) :
    (configuredFilter c s₁).1 = (configuredFilter c s₂).1 := by
  unfold Machine.configuredFilter
  rw [h.cfg]
  cases (s₂.cfg c).fsel with
  | average => exact h.average _
  | median3 => exact h.median3

/-- The response of a command (R71). -/
theorem commandValue {i : Instr} (h : SameChannel i.chan s₁ s₂) : commandValue i s₁ = commandValue i s₂ := by
  cases i with
  | meas c => exact congrArg sampleValue (h.sample 0)
  | avg c n => exact congrArg sampleValue (h.average n)
  | med3 c => exact congrArg sampleValue h.median3
  | eval c x =>
    simp only [Instr.chan] at h
    simp only [Machine.commandValue, evaluate_eq, h.cfg, h.ref]
  | scan c =>
    simp only [Instr.chan] at h
    simp only [Machine.commandValue, evaluate_eq, configuredFilter_ref, configuredFilter_cfg, h.configuredFilter,
      h.cfg, h.ref]
  | rdref c => exact h.ref

/-- The reference a command leaves (R71). -/
theorem commandRef {i : Instr} (h : SameChannel i.chan s₁ s₂) : commandRef i s₁ = commandRef i s₂ := by
  cases i with
  | eval c x =>
    simp only [Instr.chan] at h
    simp only [Machine.commandRef, h.cfg, h.ref]
  | scan c =>
    simp only [Instr.chan] at h
    simp only [Machine.commandRef, h.configuredFilter, h.cfg, h.ref]
  | meas c => exact h.ref
  | avg c n => exact h.ref
  | med3 c => exact h.ref
  | rdref c => exact h.ref

end SameChannel

/-- Settles O36: the response and the new reference of a command are functions of what `SameChannel` compares. -/
theorem channelsAreIndependent : Obligations.ChannelsAreIndependent := by
  intro s1 s2 i hwf1 hwf2 hcfg href hlevel
  have hsame : SameChannel i.chan (accept s1) (accept s2) := (SameChannel.of_levels hcfg href hlevel).accept
  obtain ⟨hc1, -⟩ := (Instr.wf_iff _ _).mp hwf1
  obtain ⟨hc2, -⟩ := (Instr.wf_iff _ _).mp hwf2
  refine ⟨_, _, _, exec_of_wf hwf1, exec_of_wf hwf2, commandBody_responses i (accept s1), ?_, ?_⟩
  · rw [hsame.commandValue]
    exact commandBody_responses i (accept s2)
  · rw [commandBody_ref (by simpa using hc1), commandBody_ref (by simpa using hc2), hsame.commandRef]

end Sys2Proof.Machine
end

