-- ==== Sys2Proof/Proofs/Encoding.lean ====
section
/-!
SUPPORT. The command word (spec/30_encoding.md R80) is its three fields: a word is a `commandWord` exactly when its fields are the
parts. From this the decoder's first half is the inverse of the encoder (R82, R84), a row of the opcode map is a mask and a match,
and the five checks of R82 are read off the fields as numbers.
-/

namespace Sys2Proof.Machine

/-! ### The three fields of a word -/

theorem opField_toNat (w : U16) : (opField w).toNat = w.toNat / 4096 := by
  have := w.isLt
  simp only [opField, BitVec.extractLsb'_toNat, Nat.shiftRight_eq_div_pow]
  omega

theorem chField_toNat (w : U16) : (chField w).toNat = w.toNat / 256 % 16 := by
  simp [chField, BitVec.extractLsb'_toNat, Nat.shiftRight_eq_div_pow]

theorem immField_toNat (w : U16) : (immField w).toNat = w.toNat % 256 := by
  simp [immField, BitVec.extractLsb'_toNat]

theorem commandWord_toNat (op ch : U4) (imm : U8) :
    (commandWord op ch imm).toNat = op.toNat * 4096 + ch.toNat * 256 + imm.toNat := by
  simp only [commandWord, BitVec.toNat_append]
  rw [← Nat.shiftLeft_add_eq_or_of_lt imm.isLt, ← Nat.shiftLeft_add_eq_or_of_lt ch.isLt]
  omega

/-- A word is given by its three fields, and each field can have any value: no bit of the word is dropped (R80). -/
theorem commandWord_eq_iff {op ch : U4} {imm : U8} {w : U16} :
    commandWord op ch imm = w ↔ opField w = op ∧ chField w = ch ∧ immField w = imm := by
  simp only [← BitVec.toNat_inj, commandWord_toNat, opField_toNat, chField_toNat, immField_toNat]
  omega

theorem commandWord_fields_eq (op ch : U4) (imm : U8) :
    opField (commandWord op ch imm) = op ∧ chField (commandWord op ch imm) = ch ∧
      immField (commandWord op ch imm) = imm :=
  commandWord_eq_iff.mp rfl

/-! ### Decoding and encoding -/

/-- The decoder's first half gives back the command of a word. -/
theorem selectCommand_encode (i : Instr) : selectCommand (encode i) = some i := by
  cases i <;> simp [encode, selectCommand, commandWord_fields_eq]

/-- Every word the first half accepts is the word of the command it gives: OP is that command's opcode, and IMM is 0 where it must
be (R82 checks 1 and 2). -/
theorem encode_of_selectCommand {w : U16} {i : Instr} (h : selectCommand w = some i) : encode i = w := by
  simp only [selectCommand] at h
  split at h
  case h_1 hop | h_3 hop | h_5 hop | h_6 hop =>
    split_ifs at h with himm
    cases h
    exact commandWord_eq_iff.mpr ⟨BitVec.eq_of_toNat_eq hop, rfl, himm⟩
  case h_2 hop | h_4 hop =>
    cases h
    exact commandWord_eq_iff.mpr ⟨BitVec.eq_of_toNat_eq hop, rfl, rfl⟩
  case h_7 => cases h

theorem selectCommand_eq_some_iff {w : U16} {i : Instr} : selectCommand w = some i ↔ encode i = w :=
  ⟨encode_of_selectCommand, fun h => h ▸ selectCommand_encode i⟩

/-- The decoder accepts a word exactly when its first half selects a command and the operands are legal. -/
theorem decode_eq_ok_iff {nch : Nat} {w : U16} {i : Instr} :
    decode nch w = .ok i ↔ selectCommand w = some i ∧ i.wf nch = true := by
  refine ⟨decode_ok_wf, fun ⟨hsel, hwf⟩ => ?_⟩
  simp [decode, hsel, (Instr.operandReject_none_iff nch i).mpr hwf]

/-- Settles O1: the first half of the decoder is the inverse of the encoder, the second half is `Instr.wf`. -/
theorem decodeEncodeAgree : Obligations.DecodeEncodeAgree := by
  intro nch w i
  rw [decode_eq_ok_iff, selectCommand_eq_some_iff]

/-! ### The opcode map -/

/-- A mask acts on each field by itself. -/
theorem opField_and (w m : U16) : opField (w &&& m) = opField w &&& opField m := BitVec.extractLsb'_and

theorem chField_and (w m : U16) : chField (w &&& m) = chField w &&& chField m := BitVec.extractLsb'_and

theorem immField_and (w m : U16) : immField (w &&& m) = immField w &&& immField m := BitVec.extractLsb'_and

/-- A row whose IMM must be zero: the mask drops CH alone (R84). -/
theorem exists_commandWord_zero_iff (op : U4) (w : U16) :
    (∃ c, commandWord op c 0 = w) ↔ w &&& 0xF0FF = commandWord op 0 0 := by
  have hop : opField (w &&& 0xF0FF) = opField w := (opField_and w _).trans BitVec.and_allOnes
  have hch : chField (w &&& 0xF0FF) = 0 := (chField_and w _).trans BitVec.and_zero
  have himm : immField (w &&& 0xF0FF) = immField w := (immField_and w _).trans BitVec.and_allOnes
  simp only [eq_comm (b := commandWord op 0 0), commandWord_eq_iff, hop, hch, himm]
  simp

/-- A row whose IMM is an operand: the mask drops CH and IMM (R84). -/
theorem exists_commandWord_iff (op : U4) (w : U16) :
    (∃ c imm, commandWord op c imm = w) ↔ w &&& 0xF000 = commandWord op 0 0 := by
  have hop : opField (w &&& 0xF000) = opField w := (opField_and w _).trans BitVec.and_allOnes
  have hch : chField (w &&& 0xF000) = 0 := (chField_and w _).trans BitVec.and_zero
  have himm : immField (w &&& 0xF000) = 0 := (immField_and w _).trans BitVec.and_zero
  simp only [eq_comm (b := commandWord op 0 0), commandWord_eq_iff, hop, hch, himm]
  simp

/-- Settles O3: a row is selected exactly by the words of its command, which are those of its opcode and, but for AVG and EVAL, of
IMM = 0. -/
theorem opcodeMapRows : Obligations.OpcodeMapRows := by
  intro w
  simp only [selectCommand_eq_some_iff]
  exact ⟨exists_commandWord_zero_iff 1 w, exists_commandWord_iff 2 w, exists_commandWord_zero_iff 3 w,
    exists_commandWord_iff 4 w, exists_commandWord_zero_iff 5 w, exists_commandWord_zero_iff 6 w⟩

/-! ### The five checks on numbers -/

/-- The command of opcode `op`, from 1 to 6, with operands `c` and `imm` (R82 step 5). -/
def commandOf (op : Nat) (c : U4) (imm : U8) : Instr :=
  if op = 1 then .meas c
  else if op = 2 then .avg c imm
  else if op = 3 then .med3 c
  else if op = 4 then .eval c imm
  else if op = 5 then .scan c
  else .rdref c

theorem commandOf_chan (op : Nat) (c : U4) (imm : U8) : (commandOf op c imm).chan = c := by
  unfold commandOf
  split_ifs <;> rfl

/-- Only AVG, opcode 2, counts samples. -/
theorem commandOf_countLegal (op : Nat) (c : U4) (imm : U8) :
    (commandOf op c imm).countLegal = true ↔ ¬ (op = 2 ∧ imm = 0) := by
  unfold commandOf
  split_ifs <;> simp [Instr.countLegal, *]

/-- Checks 1 and 2 of R82 in their order. -/
theorem selectCommand_eq_checks (w : U16) :
    selectCommand w =
      if (opField w).toNat < 1 ∨ 6 < (opField w).toNat then none
      else if ((opField w).toNat = 1 ∨ (opField w).toNat = 3 ∨ (opField w).toNat = 5 ∨ (opField w).toNat = 6) ∧
        immField w ≠ 0 then none
      else some (commandOf (opField w).toNat (chField w) (immField w)) := by
  unfold selectCommand
  split
  case h_7 h1 h2 h3 h4 h5 h6 =>
    simp only [imp_false] at h1 h2 h3 h4 h5 h6
    rw [if_pos (by omega)]
  all_goals simp [*, commandOf]

/-- Checks 3 and 4 of R82 in their order. -/
theorem commandOf_operandReject (nch op : Nat) (c : U4) (imm : U8) :
    (commandOf op c imm).operandReject nch =
      if nch ≤ c.toNat then some .badChannel else if op = 2 ∧ imm = 0 then some .nZero else none := by
  have hcount : (!(commandOf op c imm).countLegal) = true ↔ op = 2 ∧ imm = 0 := by
    rw [Bool.not_eq_true', ← Bool.not_eq_true, commandOf_countLegal, not_not]
  simp only [Instr.operandReject, commandOf_chan, hcount]

/-- R82 on the fields of the word. -/
theorem decode_eq_checks (nch : Nat) (w : U16) :
    decode nch w =
      if (opField w).toNat < 1 ∨ 6 < (opField w).toNat then .error .illegalCmd
      else if ((opField w).toNat = 1 ∨ (opField w).toNat = 3 ∨ (opField w).toNat = 5 ∨ (opField w).toNat = 6) ∧
        immField w ≠ 0 then .error .illegalCmd
      else if nch ≤ (chField w).toNat then .error .badChannel
      else if (opField w).toNat = 2 ∧ immField w = 0 then .error .nZero
      else .ok (commandOf (opField w).toNat (chField w) (immField w)) := by
  simp only [decode, selectCommand_eq_checks]
  split_ifs with hop himm hch hcount
  · rfl
  · rfl
  · simp only [commandOf_operandReject, if_pos hch]
  · simp only [commandOf_operandReject, if_neg hch, if_pos hcount]
  · simp only [commandOf_operandReject, if_neg hch, if_neg hcount]

/-- Settles O2: checks 1 and 2 are the decoder's first half, checks 3 and 4 its second, and the fields are the numbers. -/
theorem decoderChecksInOrder : Obligations.DecoderChecksInOrder := by
  intro nch w
  have hc : BitVec.ofNat 4 (w.toNat / 256 % 16) = chField w := by
    rw [← chField_toNat, BitVec.ofNat_toNat, BitVec.setWidth_eq]
  have himm : BitVec.ofNat 8 (w.toNat % 256) = immField w := by
    rw [← immField_toNat, BitVec.ofNat_toNat, BitVec.setWidth_eq]
  have hzero : w.toNat % 256 = 0 ↔ immField w = 0 := by
    rw [← immField_toNat, ← BitVec.toNat_inj]
    rfl
  simp only [decode_eq_checks, commandOf, opField_toNat, chField_toNat, hc, himm, ne_eq, hzero]

/-- Settles O4: nine closed words, each decoded by evaluation. -/
theorem sampleWordsDecode : Obligations.SampleWordsDecode := by
  unfold Obligations.SampleWordsDecode
  decide

end Sys2Proof.Machine
end

