-- ==== Sys2Proof/Proofs/AssemblerText.lean ====
section
/-!
SUPPORT. Reading the text of a command back (spec/30_encoding.md R87). A separator that does not occur in a piece of text ends that
piece; a decimal literal is digits only, so it holds no comma, no blank and no hexadecimal mark, and its digits read back as the
number.
-/

namespace Sys2Proof.Machine

/-! ### Separators and blanks -/

theorem splitAtChar_of_not_mem {sep : Char} {piece : List Char} (h : sep ∉ piece) :
    splitAtChar sep piece = (piece, none) := by
  induction piece with
  | nil => rfl
  | cons ch rest ih =>
    obtain ⟨hne, hrest⟩ := not_or.mp (List.mem_cons.not.mp h)
    simp [splitAtChar, Ne.symm hne, ih hrest]

theorem splitAtChar_append {sep : Char} {piece : List Char} (h : sep ∉ piece) (rest : List Char) :
    splitAtChar sep (piece ++ sep :: rest) = (piece, some rest) := by
  induction piece with
  | nil => simp [splitAtChar]
  | cons ch piece ih =>
    obtain ⟨hne, hpiece⟩ := not_or.mp (List.mem_cons.not.mp h)
    simp [splitAtChar, Ne.symm hne, ih hpiece]

theorem dropBlanks_append {piece : List Char} (hne : piece ≠ []) (h : ' ' ∉ piece) (rest : List Char) :
    dropBlanks (piece ++ rest) = piece ++ rest := by
  cases piece with
  | nil => exact absurd rfl hne
  | cons ch piece =>
    have hch : ch ≠ ' ' := fun e => h (e ▸ List.mem_cons_self)
    simp [dropBlanks, hch]

/-! ### Decimal literals -/

theorem digitValue_digitChar {d : Nat} (h : d < 10) : digitValue 10 (digitChar d) = some d := by
  interval_cases d <;> rfl

theorem decimal_ne_nil (n : Nat) : decimal n ≠ [] := by
  unfold decimal
  split_ifs <;> simp

/-- A decimal literal holds digits only. -/
theorem not_mem_decimal {n : Nat} (hn : n < 1000) {ch : Char} (hch : ∀ d < 10, ch ≠ digitChar d) : ch ∉ decimal n := by
  unfold decimal
  split_ifs
  · simp [hch n (by omega)]
  · simp [hch (n / 10) (by omega), hch (n % 10) (by omega)]
  · simp [hch (n / 100) (by omega), hch (n / 10 % 10) (by omega), hch (n % 10) (by omega)]

theorem readDigits_decimal {n : Nat} (hn : n < 1000) : readDigits 10 0 (decimal n) = some n := by
  unfold decimal
  split_ifs
  · simp only [readDigits, digitValue_digitChar (d := n) (by omega), Option.some.injEq]
    omega
  · simp only [readDigits, digitValue_digitChar (d := n / 10) (by omega), digitValue_digitChar (d := n % 10) (by omega),
      Option.some.injEq]
    omega
  · simp only [readDigits, digitValue_digitChar (d := n / 100) (by omega), digitValue_digitChar (d := n / 10 % 10) (by omega),
      digitValue_digitChar (d := n % 10) (by omega), Option.some.injEq]
    omega

/-- A text without the mark `x` of a hexadecimal literal is read as decimal digits. -/
theorem readLiteral_of_not_mem {ds : List Char} (hne : ds ≠ []) (hx : 'x' ∉ ds) : readLiteral ds = readDigits 10 0 ds := by
  unfold readLiteral
  split
  · exact absurd rfl hne
  · simp at hx
  · rfl

theorem readLiteral_decimal {n : Nat} (hn : n < 1000) : readLiteral (decimal n) = some n := by
  rw [readLiteral_of_not_mem (decimal_ne_nil n) (not_mem_decimal hn (by decide)), readDigits_decimal hn]

/-! ### Operands -/

theorem readOperands_one {m : Nat} (hm : m < 1000) : readOperands (printOperands [m]) = some (m, none) := by
  have hblank : dropBlanks (decimal m) = decimal m := by
    simpa using dropBlanks_append (decimal_ne_nil m) (not_mem_decimal hm (by decide)) []
  simp [readOperands, printOperands, hblank, splitAtChar_of_not_mem (not_mem_decimal (ch := ',') hm (by decide)),
    readLiteral_decimal hm]

theorem readOperands_two {m n : Nat} (hm : m < 1000) (hn : n < 1000) :
    readOperands (printOperands [m, n]) = some (m, some n) := by
  have hblank : dropBlanks (' ' :: decimal n) = decimal n := by
    simpa [dropBlanks] using dropBlanks_append (decimal_ne_nil n) (not_mem_decimal hn (by decide)) []
  have hcomma : ',' ∉ decimal m := not_mem_decimal hm (by decide)
  simp [readOperands, printOperands, dropBlanks_append (decimal_ne_nil m) (not_mem_decimal hm (by decide)),
    splitAtChar_append hcomma, hblank, readLiteral_decimal hm, readLiteral_decimal hn]

/-- The operand a command carries after its channel, if it carries one (R87). -/
def secondOperand : Instr → Option Nat
  | .avg _ n => some n.toNat
  | .eval _ x => some x.toNat
  | .meas _ => none
  | .med3 _ => none
  | .scan _ => none
  | .rdref _ => none

/-- The operands of a command are read back as numbers. -/
theorem readOperands_printOperands (i : Instr) :
    readOperands (printOperands (operandValues i)) = some (i.chan.toNat, secondOperand i) := by
  have hchan (c : U4) : c.toNat < 1000 := by omega
  have himm (v : U8) : v.toNat < 1000 := by omega
  cases i with
  | meas c => exact readOperands_one (hchan c)
  | avg c n => exact readOperands_two (hchan c) (himm n)
  | med3 c => exact readOperands_one (hchan c)
  | eval c x => exact readOperands_two (hchan c) (himm x)
  | scan c => exact readOperands_one (hchan c)
  | rdref c => exact readOperands_one (hchan c)

/-! ### Commands -/

/-- The mnemonic and the operands of a command are that command, and each operand is in range. -/
theorem assemble_mnemonic (i : Instr) : assemble (mnemonic i) i.chan.toNat (secondOperand i) = some i := by
  have hchan (c : U4) : ¬ 16 ≤ c.toNat := by omega
  have himm (v : U8) : ¬ 256 ≤ v.toNat := by omega
  cases i <;> simp [assemble, mnemonic, Instr.chan, secondOperand, hchan, himm]

theorem blank_not_mem_mnemonic (i : Instr) : ' ' ∉ mnemonic i := by
  cases i <;> simp [mnemonic]

/-- Settles O5: the blank ends the mnemonic, the operands read back, and together they are the command. -/
theorem assemblerRoundTrip : Obligations.AssemblerRoundTrip := by
  intro i
  simp only [parseCommand, printCommand, splitAtChar_append (blank_not_mem_mnemonic i), readOperands_printOperands,
    assemble_mnemonic]

end Sys2Proof.Machine
end

