-- ==== Sys2Proof/Proofs/Responses.lean ====
section
/-!
SUPPORT. A command word at an idle block (spec/30_encoding.md R82) runs or is rejected, with one response either way (R88), and the
values a completed command can answer (R89).
-/

namespace Sys2Proof.Machine

/-! ### One response to a command word -/

/-- On an idle block, the step on a command word is what the word does (R31). -/
theorem step_command {s : State} {w : U16} {rest : List HostAction} (hbusy : s.busy = false)
    (hhost : s.host = .command w :: rest) : step s = runWord w { s with host := rest } := by
  rw [step_cons hhost]
  simp [act, hbusy]

/-- Settles O6: the word is executed on the state the host's list has moved on in. -/
theorem stepRunsDecodedCommand : Obligations.StepRunsDecodedCommand := by
  intro s w rest i hbusy hhost hdec
  rw [step_command hbusy hhost]
  exact runWord_ok (s := { s with host := rest }) hdec

/-- A command ends with its response, and the block is idle again (R11). -/
@[simp] theorem commandBody_busy (i : Instr) (s : State) : (commandBody i s).busy = false := by
  cases i <;> rfl

/-- Settles O9: a word that decodes is executed and answers OK; a word that does not is rejected and answers its reason's code. -/
theorem everyCommandGetsOneResponse : Obligations.EveryCommandGetsOneResponse := by
  intro s w rest hbusy hhost
  rw [step_command hbusy hhost]
  cases hdec : decode s.nch w with
  | ok i =>
    refine ⟨_, _, (runWord_ok (s := { s with host := rest }) hdec).trans (exec_of_wf (decode_ok_wf hdec).2),
      commandBody_responses i _, commandBody_busy i _, rfl, fun h => absurd rfl h⟩
  | error r =>
    refine ⟨_, _, runWord_error (s := { s with host := rest }) hdec, reject_responses r _, rfl, ?_, fun _ => rfl⟩
    cases r <;> rfl

/-! ### The values of R89 -/

/-- VAL of a command that answers a sample is 8 bits wide. -/
theorem sampleValue_lt (v : U8) : (sampleValue v).toNat < 2 ^ 8 := by
  have := v.isLt
  rw [sampleValue, zext16, BitVec.toNat_setWidth]
  omega

/-- VAL of EVAL is 1 bit wide. -/
theorem evalValue_lt (touch : Bool) : (evalValue touch).toNat < 2 ^ 1 := by
  cases touch <;> decide

/-- VAL of SCAN is 9 bits wide. -/
theorem scanValue_lt (touch : Bool) (f : U8) : (scanValue touch f).toNat < 2 ^ 9 := by
  have := f.isLt
  rw [scanValue_toNat]
  split <;> omega

/-- Settles O10: the value is `commandValue`, in the layout of its command. -/
theorem responseLayouts : Obligations.ResponseLayouts := by
  intro s i hwf
  refine ⟨_, _, exec_of_wf hwf, commandBody_responses i (accept s), ?_⟩
  cases i with
  | meas c => exact sampleValue_lt _
  | avg c n => exact sampleValue_lt _
  | med3 c => exact sampleValue_lt _
  | eval c x => exact evalValue_lt _
  | scan c => exact scanValue_lt _ _
  | rdref c => rfl

end Sys2Proof.Machine
end

