-- ==== Sys2Proof/Proofs/Sampler.lean ====
section
/-!
SUPPORT. The sampler (spec/40_sampler.md): what MEAS answers (R112), the trace of one execution of measureOnce (R114), the state
after it (R115), and the commands that only sample (R113, R142, R146), which are a row of executions and a response.
-/

namespace Sys2Proof.Machine

/-! ### The sample in numbers -/

/-- VAL of a sample is the number of low reads, which fits 8 bits (R112). -/
theorem sampleValue_sample (e : Env) (c : U4) (m : Nat) : sampleValue (e.sample c m) = BitVec.ofNat 16 (e.lows c m) := by
  have hle := e.lows_le c m
  apply BitVec.eq_of_toNat_eq
  simp only [sampleValue, zext16, Env.sample_eq, BitVec.toNat_setWidth, BitVec.toNat_ofNat]
  omega

/-- MEAS in terms of the number of low reads before the first high one (R112). -/
theorem exec_meas_lows {s : State} {c : U4} (hc : c.toNat < s.nch) :
    ∃ t, exec (.meas c) s = .next t ∧
      t.responses = s.responses ++ [{ st := 0, val := BitVec.ofNat 16 (s.env.lows c 1) }] ∧
      t.cnt = BitVec.ofNat 8 (s.env.lows c 1 + 1) ∧
      readsIn t.trace = readsIn s.trace + min (s.env.lows c 1 + 1) 255 := by
  refine ⟨_, exec_of_wf ((Instr.wf_iff _ _).mpr ⟨hc, rfl⟩), ?_, ?_, ?_⟩ <;> rw [commandBody_meas]
  · rw [respond_responses, measureTimes_responses, sampleValue_sample]
    rfl
  · rw [respond_cnt, measureTimes_cnt, accept_env, Env.sample_eq, BitVec.ofNat_add]
    rfl
  · rw [respond_trace, measureTimes_trace, readsIn_append, Env.eventsOf, Env.eventsOf, List.append_nil,
      readsIn_measureEvents]
    rfl

/-- Settles O16: the first high read `k` makes `k - 1` low reads; with none by read 255 there are 255, and CNT wraps. -/
theorem measAnswersTheChargeTime : Obligations.MeasAnswersTheChargeTime := by
  intro s c hc
  have hmeas := exec_meas_lows hc
  constructor
  · intro k h1 h255 hhigh hlow
    rw [Env.lows_of_first_high h1 h255 hhigh hlow, Nat.sub_add_cancel h1, min_eq_left h255] at hmeas
    exact hmeas
  · intro hlow
    rw [Env.lows_of_all_low hlow] at hmeas
    exact hmeas

/-! ### The trace of one execution -/

/-- The low reads of an execution, as the bits the environment gives. -/
theorem Env.map_read_lows (e : Env) (c : U4) :
    (List.range (e.lows c 1)).map (fun i => Event.read c (e.levelOf c 1 (i + 1))) =
      List.replicate (e.lows c 1) (.read c false) := by
  refine List.eq_replicate_iff.mpr ⟨by simp, fun ev hev => ?_⟩
  obtain ⟨i, hi, rfl⟩ := List.mem_map.mp hev
  rw [Env.level_of_lt_lows (by omega) (List.mem_range.mp hi)]

/-- The reads of an execution are its first `min (lows + 1) 255` draws (R114). -/
theorem Env.readEvents_eq_map (e : Env) (c : U4) :
    e.readEvents c =
      (List.range (min (e.lows c 1 + 1) 255)).map fun i => Event.read c (e.levelOf c 1 (i + 1)) := by
  have hle := e.lows_le c 1
  by_cases h : e.lows c 1 < 255
  · rw [min_eq_left (by omega), List.range_succ, List.map_append, e.map_read_lows, List.map_singleton,
      Env.level_at_lows h, Env.readEvents, if_pos h]
  · rw [show min (e.lows c 1 + 1) 255 = e.lows c 1 by omega, e.map_read_lows, Env.readEvents, if_neg h,
      List.append_nil]

/-- Settles O17: the number of reads is one more than the low ones before the first high one, at most 255. -/
theorem measureOnceTrace : Obligations.MeasureOnceTrace := by
  intro s c
  have hle := s.env.lows_le c 1
  refine ⟨min (s.env.lows c 1 + 1) 255, by omega, by omega, ?_, fun i h1 hi => Env.level_of_lt_lows h1 (by omega), ?_⟩
  · rw [measureOnce_eq, ← Env.readEvents_eq_map]
    simp [Env.measureEvents]
  · by_cases h : s.env.lows c 1 < 255
    · rw [min_eq_left (by omega)]
      exact .inl (Env.level_at_lows h)
    · exact .inr (by omega)

/-! ### The state after one execution -/

/-- One execution is a row of one. -/
theorem measureOnce_snd (c : U4) (s : State) : (measureOnce c s).2 = measureTimes c 1 s := rfl

/-- Settles O18: the case of one execution of what a row of executions leaves. -/
theorem measureOnceLeavesPadDrivenLow : Obligations.MeasureOnceLeavesPadDrivenLow := by
  intro s c hc
  simp only [measureOnce_snd, measureOnce_fst]
  refine ⟨?_, ?_, measureTimes_crit c 0 s, fun d => ⟨measureTimes_ref c 1 s d, measureTimes_cfg c 1 s d⟩,
    fun d hd => ⟨?_, ?_⟩, ?_, measureTimes_nch c 1 s, measureTimes_busy c 1 s, measureTimes_responses c 1 s,
    measureTimes_host c 1 s⟩
  · rw [measureTimes_padOut hc, if_pos rfl]
  · rw [measureTimes_padOe hc, if_pos rfl]
  · rw [measureTimes_padOut hc, if_neg hd]
  · rw [measureTimes_padOe hc, if_neg hd]
  · rw [measureTimes_cnt, BitVec.add_sub_cancel]

/-! ### The commands that only sample -/

/-- MEAS, AVG and MED3 are a row of at least one execution and a response (R113, R142, R146). -/
theorem commandBody_sampling {i : Instr} {c : U4} (hi : i = .meas c ∨ (∃ n, i = .avg c n) ∨ i = .med3 c) (s : State) :
    ∃ v n, commandBody i s = respond v (measureTimes c (n + 1) s) := by
  obtain rfl | ⟨n, rfl⟩ | rfl := hi
  · exact ⟨_, 0, commandBody_meas c s⟩
  · exact ⟨_, n.toNat, congrArg (respond (sampleValue (average c n s).1)) (average_state c n s)⟩
  · exact ⟨_, 3, commandBody_med3 c s⟩

/-- The channel of a command that only samples. -/
theorem chan_of_sampling {i : Instr} {c : U4} (hi : i = .meas c ∨ (∃ n, i = .avg c n) ∨ i = .med3 c) : i.chan = c := by
  obtain rfl | ⟨n, rfl⟩ | rfl := hi <;> rfl

/-- Settles O33: a rejection changes nothing but the responses, and an executed command is a row of executions. -/
theorem samplingFrame : Obligations.SamplingFrame := by
  intro s t c i hi hexec
  by_cases hwf : i.wf s.nch = true
  · rw [exec_of_wf hwf] at hexec
    obtain rfl := Host.Outcome.next.inj hexec
    obtain ⟨v, n, hbody⟩ := commandBody_sampling hi (accept s)
    have hc : c.toNat < (accept s).nch := chan_of_sampling hi ▸ ((Instr.wf_iff _ _).mp hwf).1
    rw [hbody, if_pos hwf]
    refine ⟨fun d => ⟨by simp, by simp⟩, fun d hd => ?_, ?_, by simp, rfl, by simp, ⟨⟨statusOk, v⟩, ?_⟩,
      ⟨Env.eventsOf c (n + 1) s.env, ?_, eventsOf_chan c (n + 1) s.env⟩⟩
    · simp [measureTimes_padOut hc, measureTimes_padOe hc, hd]
    · simp [measureTimes_padOut hc, measureTimes_padOe hc]
    · rw [respond_responses, measureTimes_responses, accept_responses]
    · rw [respond_trace, measureTimes_trace, accept_trace, accept_env]
  · obtain ⟨r, hr⟩ := Option.ne_none_iff_exists'.mp (mt (Instr.operandReject_none_iff s.nch i).mp hwf)
    rw [exec_of_reject hr] at hexec
    obtain rfl := Host.Outcome.next.inj hexec
    rw [if_neg hwf]
    exact ⟨fun d => ⟨rfl, rfl⟩, fun d _ => ⟨rfl, rfl⟩, ⟨rfl, rfl, rfl, rfl⟩, rfl, rfl, rfl,
      ⟨_, reject_responses r _⟩, [], (List.append_nil _).symm, by simp⟩

end Sys2Proof.Machine
end

