-- ==== Sys2Proof/Proofs/Phases.lean ====
section
/-!
SUPPORT. The step-level reading of measureOnce (spec/40_sampler.md R118): its phases compose to measureOnce. DISCH and ARM are one
step each, COUNT is as many steps as the counting loop makes iterations, FIN is one, and the result stays.
-/

namespace Sys2Proof.Machine

/-! ### Runs of the sampler -/

theorem phaseRun_add (c : U4) (m n : Nat) (p : Phase × State) :
    phaseRun c (m + n) p = phaseRun c n (phaseRun c m p) := by
  induction m generalizing p with
  | zero => rw [Nat.zero_add, phaseRun]
  | succ m ih => rw [Nat.succ_add, phaseRun, phaseRun, ih]

/-- The result stays. -/
theorem phaseRun_done (c : U4) (n : Nat) (v : U8) (s : State) : phaseRun c n (.done v, s) = (.done v, s) := by
  induction n with
  | zero => rfl
  | succ n ih => exact ih

/-- Where a step of the sampler is FIN, there was no result at or before it. -/
theorem phaseRun_not_done_of_fin {c : U4} {n m : Nat} {p : Phase × State} (hfin : (phaseRun c n p).1 = .fin) (hm : m ≤ n)
    (v : U8) : (phaseRun c m p).1 ≠ .done v := by
  intro hdone
  obtain ⟨k, rfl⟩ := Nat.exists_eq_add_of_le hm
  have hp : phaseRun c m p = (.done v, (phaseRun c m p).2) := Prod.ext hdone rfl
  rw [phaseRun_add, hp, phaseRun_done] at hfin
  cases hfin

/-! ### The phase COUNT -/

/-- An iteration that does not leave the loop has counted one on, without a wrap (R116). -/
theorem cnt_of_countTick_stays {c : U4} {s s' : State} (h : countTick c s = (false, s')) :
    s'.cnt.toNat = s.cnt.toNat + 1 := by
  cases hlevel : s.nextLevel c with
  | true => simp [countTick_high hlevel] at h
  | false =>
    rw [countTick_low hlevel, Prod.mk.injEq, decide_eq_false_iff_not] at h
    obtain ⟨hne, rfl⟩ := h
    rw [State.setCnt_cnt]
    bv_omega

/-- With iterations enough for CNT to wrap, COUNT is left, in the state of the counting loop (R116). -/
theorem phaseRun_count (c : U4) (fuel : Nat) (s : State) (h : 256 ≤ s.cnt.toNat + fuel) :
    ∃ r, 1 ≤ r ∧ r ≤ fuel ∧ phaseRun c r (.count, s) = (.fin, countLoop c fuel s) := by
  induction fuel generalizing s with
  | zero => exact absurd s.cnt.isLt (by omega)
  | succ fuel ih =>
    rcases htick : countTick c s with ⟨_ | _, s'⟩
    · have hcnt := cnt_of_countTick_stays htick
      obtain ⟨r, -, hr, hrun⟩ := ih s' (by omega)
      exact ⟨r + 1, by omega, by omega, by simp [phaseRun, phaseStep, countLoop, htick, hrun]⟩
    · exact ⟨1, le_rfl, by omega, by simp [phaseRun, phaseStep, countLoop, htick]⟩

/-! ### The composition -/

/-- The state in which the counting loop begins, after steps 1 to 3 of R111. -/
def State.armed (c : U4) (s : State) : State :=
  (configureInput c (critEnter (driveLow c s.startExecution))).setCnt 1

/-- DISCH and ARM lead to COUNT in the state where measureOnce begins its loop. -/
theorem phaseRun_disch (c : U4) (n : Nat) (s : State) :
    phaseRun c (n + 2) (.disch, s) = phaseRun c n (.count, s.armed c) := rfl

/-- FIN after the counting loop ends with the result and the state of measureOnce. -/
theorem phaseStep_fin (c : U4) (s : State) :
    phaseStep c (.fin, countLoop c maxReads (s.armed c)) = (.done (measureOnce c s).1, (measureOnce c s).2) := rfl

/-- Settles O20: with `r` iterations of the counting loop FIN is reached after `r + 2` steps and done by the next. -/
theorem phasesComposeToMeasureOnce : Obligations.PhasesComposeToMeasureOnce := by
  intro s c
  obtain ⟨r, hr1, hr255, hcount⟩ := phaseRun_count c maxReads (s.armed c) (Nat.le_refl 256)
  have hfin : phaseRun c (r + 2) (.disch, s) = (.fin, countLoop c maxReads (s.armed c)) :=
    (phaseRun_disch c r s).trans hcount
  refine ⟨r + 3, by omega, Nat.add_le_add_right hr255 3,
    fun m hm => phaseRun_not_done_of_fin (congrArg Prod.fst hfin) (Nat.le_of_lt_succ hm), fun m hm => ?_⟩
  obtain ⟨k, rfl⟩ := Nat.exists_eq_add_of_le hm
  calc phaseRun c (r + 2 + 1 + k) (.disch, s)
      = phaseRun c k (phaseStep c (phaseRun c (r + 2) (.disch, s))) := by rw [phaseRun_add, phaseRun_add]; rfl
    _ = (.done (measureOnce c s).1, (measureOnce c s).2) := by rw [hfin, phaseStep_fin, phaseRun_done]

end Sys2Proof.Machine
end

