-- ==== Sys2Proof/Proofs/Filters.lean ====
section
/-!
SUPPORT. The filters (spec/41_filters.md): the mean AVG answers (R141), its bounds and its accumulator (R143), and the middle
sample MED3 answers (R147).
-/

namespace Sys2Proof.Machine

/-! ### The sum of the samples -/

/-- The sum the accumulator holds, as a list's sum. -/
theorem Env.sampleSum_eq_sum (e : Env) (c : U4) (m n : Nat) :
    e.sampleSum c m n = ((List.range n).map fun j => (e.sample c (j + m + 1)).toNat).sum := by
  induction n with
  | zero => rfl
  | succ n ih => rw [Env.sampleSum, ih, List.sum_range_succ, Nat.add_comm m n]

/-- The mean of samples fits 8 bits, also where there is none. -/
theorem Env.sampleMean_le (e : Env) (c : U4) (m n : Nat) : e.sampleSum c m n / n ≤ 255 :=
  Nat.div_le_of_le_mul (Nat.mul_comm 255 n ▸ e.sampleSum_le c m n)

/-- The mean of at least one sample lies between any bounds of the samples (R143 (c)). -/
theorem Env.sampleMean_between {e : Env} {c : U4} {m n lo hi : Nat} (hn : 0 < n)
    (h : ∀ j, j < n → lo ≤ (e.sample c (j + m + 1)).toNat ∧ (e.sample c (j + m + 1)).toNat ≤ hi) :
    lo ≤ e.sampleSum c m n / n ∧ e.sampleSum c m n / n ≤ hi := by
  have hlo := List.card_nsmul_le_sum ((List.range n).map fun j => (e.sample c (j + m + 1)).toNat) lo
    (by simpa using fun j hj => (h j hj).1)
  have hhi := List.sum_le_card_nsmul ((List.range n).map fun j => (e.sample c (j + m + 1)).toNat) hi
    (by simpa using fun j hj => (h j hj).2)
  rw [← Env.sampleSum_eq_sum, List.length_map, List.length_range, smul_eq_mul] at hlo hhi
  exact ⟨(Nat.le_div_iff_mul_le hn).mpr (Nat.mul_comm n lo ▸ hlo), Nat.div_le_of_le_mul hhi⟩

/-- Settles O24: 255 samples of at most 255 sum to less than 2^16. -/
theorem accumulatorNeverWraps : Obligations.AccumulatorNeverWraps := by
  intro s c n hn
  have hle := s.env.sampleSum_le c 0 n
  calc (sumSamples c n 0 s).1.toNat
      = s.env.sampleSum c 0 n % 2 ^ 16 := by simp [sumSamples_eq]
    _ = s.env.sampleSum c 0 n := Nat.mod_eq_of_lt (by omega)
    _ = _ := s.env.sampleSum_eq_sum c 0 n

/-! ### AVG -/

/-- VAL of a sample given as a number of 8 bits (R89). -/
theorem sampleValue_ofNat {k : Nat} (h : k ≤ 255) : sampleValue (BitVec.ofNat 8 k) = BitVec.ofNat 16 k := by
  rw [sampleValue, zext16, BitVec.setWidth_ofNat_of_le_of_lt (by decide) (Nat.lt_succ_of_le h)]

/-- A row of executions and a response count as many executions as the row has. -/
theorem respond_measureTimes_exec (v : U16) (c : U4) (n : Nat) (s : State) :
    (respond v (measureTimes c n s)).env.exec = s.env.exec + n := by
  rw [respond_env, measureTimes_env, Env.later_exec]

/-- AVG in terms of the sum of the samples after the throwaway one (R141). -/
theorem exec_avg_sampleSum {s : State} {c : U4} {n : U8} (hc : c.toNat < s.nch) (hn : n ≠ 0) :
    ∃ t, exec (.avg c n) s = .next t ∧
      t.responses = s.responses ++ [{ st := 0, val := BitVec.ofNat 16 (s.env.sampleSum c 1 n.toNat / n.toNat) }] ∧
      t.env.exec = s.env.exec + (n.toNat + 1) := by
  refine ⟨_, exec_of_wf ((Instr.wf_iff _ _).mpr ⟨hc, decide_eq_true hn⟩), ?_, ?_⟩ <;> rw [commandBody_avg _ _ _ hn]
  · rw [respond_responses, measureTimes_responses, sampleValue_ofNat (Env.sampleMean_le _ _ _ _)]
    rfl
  · exact respond_measureTimes_exec _ c _ (accept s)

/-- Settles O22: the sum of the samples, written out. -/
theorem avgAnswersTheTruncatedMean : Obligations.AvgAnswersTheTruncatedMean := by
  intro s c n hc hn
  have havg := exec_avg_sampleSum hc hn
  rw [Env.sampleSum_eq_sum] at havg
  exact havg

/-- Settles O23: the mean of O22 lies between the bounds, and VAL holds it whole. -/
theorem avgLiesBetweenTheSamples : Obligations.AvgLiesBetweenTheSamples := by
  intro s c n lo hi hc hn hbounds
  obtain ⟨t, hexec, hresp, -⟩ := exec_avg_sampleSum hc hn
  refine ⟨t, _, hexec, hresp, ?_⟩
  have hle := s.env.sampleMean_le c 1 n.toNat
  rw [BitVec.toNat_ofNat, Nat.mod_eq_of_lt (by omega)]
  exact Env.sampleMean_between (BitVec.toNat_pos_of_ne_zero hn) hbounds

/-! ### MED3 -/

/-- The decision tree of R145 answers the middle one of its three arguments, ties included (R147): in each leaf, which of the
others is below it and which above. -/
theorem medianTree_is_middle (v0 v1 v2 : U8) :
    ∃ lo hi, List.Perm [lo, medianTree v0 v1 v2, hi] [v0, v1, v2] ∧
      lo ≤ medianTree v0 v1 v2 ∧ medianTree v0 v1 v2 ≤ hi := by
  unfold medianTree
  split_ifs with h01 h12 h02 h21 h20
  · exact ⟨v0, v2, .refl _, BitVec.le_of_lt h01, BitVec.le_of_lt h12⟩
  · exact ⟨v0, v1, .cons _ (.swap ..), BitVec.le_of_lt h02, BitVec.not_lt.mp h12⟩
  · exact ⟨v2, v1, List.perm_append_comm (l₁ := [v2]), BitVec.not_lt.mp h02, BitVec.le_of_lt h01⟩
  · exact ⟨v2, v0, List.reverse_perm [v0, v1, v2], BitVec.le_of_lt h21, BitVec.not_lt.mp h01⟩
  · exact ⟨v1, v0, List.perm_append_comm (l₁ := [v1, v2]) (l₂ := [v0]), BitVec.not_lt.mp h21, BitVec.le_of_lt h20⟩
  · exact ⟨v1, v2, .swap .., BitVec.not_lt.mp h01, BitVec.not_lt.mp h20⟩

/-- Settles O25: the tree on the three live samples, in a row of four executions of 1 to 255 reads each. -/
theorem med3AnswersTheMiddleSample : Obligations.Med3AnswersTheMiddleSample := by
  intro s c hc
  obtain ⟨lo, hi, hperm, hlo, hhi⟩ :=
    medianTree_is_middle (s.env.sample c 2) (s.env.sample c 3) (s.env.sample c 4)
  refine ⟨_, lo, _, hi, exec_of_wf ((Instr.wf_iff _ _).mpr ⟨hc, rfl⟩), ?_, hperm, hlo, hhi, ?_⟩ <;> rw [commandBody_med3]
  · rw [respond_responses, measureTimes_responses]
    rfl
  · have hreads := readsIn_eventsOf c 4 s.env
    rw [respond_trace, measureTimes_trace, readsIn_append, accept_trace, accept_env]
    exact ⟨respond_measureTimes_exec _ c 4 (accept s), by omega, by omega⟩

end Sys2Proof.Machine
end

