-- ==== Sys2Proof/Proofs/Calibrator.lean ====
section
/-!
SUPPORT. The calibrator's commands (spec/42_calibrator.md): EVAL in numbers (R161) and its cool-downs in a row (R163), SCAN as the
configured filter and EVAL (R164), RDREF (R166), and the frames of EVAL and SCAN.
-/

namespace Sys2Proof.Machine

/-! ### RDREF -/

/-- Settles O32: RDREF on an existing channel is its response alone. -/
theorem rdrefAnswersTheReference : Obligations.RdrefAnswersTheReference := by
  intro s c hc
  have hwf : (Instr.rdref c).wf s.nch = true := (Instr.wf_iff _ _).mpr ⟨hc, rfl⟩
  rw [exec_of_wf hwf, commandBody_rdref]
  rfl

/-! ### What an evaluation leaves unchanged (R160) -/

@[simp] theorem evaluate_cfg (c : U4) (x : U8) (s : State) (d : U4) : (evaluate c x s).2.cfg d = s.cfg d := by
  rw [evaluate_eq, State.setRef_cfg]

@[simp] theorem evaluate_nch (c : U4) (x : U8) (s : State) : (evaluate c x s).2.nch = s.nch := by
  rw [evaluate_eq, State.setRef_nch]

@[simp] theorem evaluate_padOut (c : U4) (x : U8) (s : State) (d : U4) :
    (evaluate c x s).2.padOut d = s.padOut d := by
  rw [evaluate_eq, State.setRef_padOut]

@[simp] theorem evaluate_padOe (c : U4) (x : U8) (s : State) (d : U4) :
    (evaluate c x s).2.padOe d = s.padOe d := by
  rw [evaluate_eq, State.setRef_padOe]

/-- The evaluation keeps the other channels' references. -/
theorem evaluate_ref_of_ne {s : State} {c d : U4} (h : c.toNat < s.nch) (hd : d ≠ c) (x : U8) :
    (evaluate c x s).2.ref d = s.ref d := by
  rw [evaluate_ref h, if_neg hd]

/-! ### EVAL in numbers -/

/-- EVAL leaves `nextRef` in the reference of its channel (R160). -/
theorem commandBody_eval_ref {s : State} {c : U4} (h : c.toNat < s.nch) (x : U8) :
    (commandBody (.eval c x) s).ref c =
      nextRef (s.ref c) (s.cfg c).offset x (baseline (s.ref c) (s.cfg c).offset) :=
  commandBody_ref (i := .eval c x) h

/-- VAL of EVAL in numbers (R161 steps 1 to 3). -/
theorem evalValue_touched {ref : U16} {o : U4} (ho : o.toNat ≤ 8) (x T : U8) :
    evalValue (touched x (baseline ref o) T) =
      if T.toNat < (x.toNat + 256 - ref.toNat / 2 ^ o.toNat % 256) % 256 then 1 else 0 := by
  simp only [evalValue_eq, touched_iff, baseline_toNat ho]

/-- The new reference in numbers (R161 step 4). -/
theorem nextRef_eq {ref : U16} {o : U4} (ho : o.toNat ≤ 8) (x : U8) :
    nextRef ref o x (baseline ref o) =
      if x.toNat ≤ ref.toNat / 2 ^ o.toNat % 256 then BitVec.ofNat 16 (x.toNat * 2 ^ o.toNat) else ref + 1 := by
  rw [← baseline_toNat ho]
  split
  case isTrue hle => rw [← nextRef_snap_toNat ho hle, BitVec.ofNat_toNat, BitVec.setWidth_eq]
  case isFalse hlt => exact nextRef_cool (Nat.lt_of_not_le hlt)

/-- Settles O26: the decision and the new reference, both from the baseline of the reference as it was. -/
theorem evalDecidesAndUpdatesTheReference : Obligations.EvalDecidesAndUpdatesTheReference := by
  intro s c x hc hwf
  obtain ⟨ho, -⟩ := (ChanCfg.wf_iff _).mp hwf
  refine ⟨_, exec_of_wf (Instr.eval_wf hc), ?_, ?_⟩
  · rw [commandBody_eval, respond_responses, evaluate_responses, accept_responses, evaluate_eq, accept_ref, accept_cfg,
      evalValue_touched ho, statusOk_eq]
  · exact (commandBody_eval_ref (s := accept s) hc x).trans (nextRef_eq ho x)

/-! ### Cool-downs in a row -/

/-- The idle block and a host about to issue EVAL on channel `c` with the samples `ys`, each above the baseline at its turn; the
reference fits 8 + OFFSET bits, so that the baseline is the shifted reference (R21 (c)). -/
structure State.Cooling (c : U4) (ys : List U8) (s : State) : Prop where
  chan : c.toNat < s.nch
  offset : (s.cfg c).offset.toNat ≤ 8
  idle : s.busy = false
  host : s.host = ys.map fun y => .command (encode (.eval c y))
  range : (s.ref c).toNat < 2 ^ (8 + (s.cfg c).offset.toNat)
  above : ∀ i y, ys[i]? = some y → ((s.ref c).toNat + i) / 2 ^ (s.cfg c).offset.toNat < y.toNat

/-- On an idle block, the step on the word of a command with legal operands completes that command (R31, R82). -/
theorem step_encode {s : State} {i : Instr} {rest : List HostAction} (hidle : s.busy = false)
    (hhost : s.host = .command (encode i) :: rest) (hwf : i.wf s.nch = true) :
    step s = .next (commandBody i (accept { s with host := rest })) := by
  rw [step_command hidle hhost,
    runWord_ok (s := { s with host := rest }) (decode_eq_ok_iff.mpr ⟨selectCommand_encode i, hwf⟩)]
  exact exec_of_wf (s := { s with host := rest }) hwf

namespace State.Cooling

variable {s : State} {c : U4} {y : U8} {ys : List U8}

/-- One EVAL above the baseline raises the reference by one (R21 (b)), and the rest of the samples are still above theirs. -/
theorem step (h : s.Cooling c (y :: ys)) :
    ∃ t, step s = .next t ∧ t.Cooling c ys ∧ t.cfg c = s.cfg c ∧ (t.ref c).toNat = (s.ref c).toNat + 1 := by
  obtain ⟨hc, ho, hidle, hhost, hrange, habove⟩ := h
  let u : State := accept { s with host := ys.map fun y => .command (encode (.eval c y)) }
  have hstep : Machine.step s = .next (commandBody (.eval c y) u) := step_encode hidle hhost (Instr.eval_wf hc)
  have hcfg : (commandBody (.eval c y) u).cfg c = s.cfg c := by
    rw [commandBody_eval, respond_cfg, evaluate_cfg]
    rfl
  have hnext : (commandBody (.eval c y) u).ref c =
      nextRef (s.ref c) (s.cfg c).offset y (baseline (s.ref c) (s.cfg c).offset) :=
    commandBody_eval_ref (s := u) hc y
  have hcool : (baseline (s.ref c) (s.cfg c).offset).toNat < y.toNat := by
    rw [baseline_toNat ho]
    exact (Nat.mod_le _ _).trans_lt (habove 0 y rfl)
  have href : ((commandBody (.eval c y) u).ref c).toNat = (s.ref c).toNat + 1 := by
    rw [hnext, nextRef_cool_toNat ho hcool]
  refine ⟨_, hstep, ⟨?_, hcfg ▸ ho, commandBody_busy _ _, rfl, ?_, fun i z hz => ?_⟩, hcfg, href⟩
  · rw [commandBody_eval, respond_nch, evaluate_nch]
    exact hc
  · rw [hcfg, hnext]
    exact nextRef_lt ho (.inr hrange)
  · rw [hcfg, href, Nat.add_assoc, Nat.add_comm 1]
    exact habove (i + 1) z hz

/-- The run of all the EVALs raises the reference by their number. -/
theorem run (h : s.Cooling c ys) :
    ∃ t, Host.Core.run Sys2Proof.core ys.length s = .next t ∧ t.Cooling c [] ∧ t.cfg c = s.cfg c ∧
      (t.ref c).toNat = (s.ref c).toNat + ys.length := by
  induction ys generalizing s with
  | nil => exact ⟨s, rfl, h, rfl, rfl⟩
  | cons y ys ih =>
    obtain ⟨u, hstep, hu, hcfg, href⟩ := h.step
    obtain ⟨t, hrun, ht, hcfg', href'⟩ := ih hu
    refine ⟨t, (run_of_step hstep).trans hrun, ht, hcfg'.trans hcfg, ?_⟩
    rw [href', href, List.length_cons]
    omega

/-- The baseline is the shifted reference, with nothing truncated (R21 (c)). -/
theorem baseline_eq (h : s.Cooling c ys) :
    (baseline (s.ref c) (s.cfg c).offset).toNat = (s.ref c).toNat / 2 ^ (s.cfg c).offset.toNat := by
  rw [baseline_toNat h.offset]
  exact Nat.mod_eq_of_lt (Nat.lt_succ_of_le (shiftedRef_le h.range))

end State.Cooling

/-- The baseline `n` cool-downs after a snap to `x` (R163 (e)). -/
theorem snapped_add_div (x n o : Nat) : (x * 2 ^ o + n) / 2 ^ o = x + n / 2 ^ o := by
  rw [Nat.mul_comm, Nat.mul_add_div (Nat.two_pow_pos o)]

/-- Settles O29: a reference just snapped is one from which the EVALs cool down. -/
theorem coolDownsRaiseTheBaselineSlowly : Obligations.CoolDownsRaiseTheBaselineSlowly := by
  intro s c x ys hc hwf hidle hhost hsnap habove
  obtain ⟨ho, -⟩ := (ChanCfg.wf_iff _).mp hwf
  have hrange : (s.ref c).toNat < 2 ^ (8 + (s.cfg c).offset.toNat) := by
    rw [hsnap, Nat.pow_add]
    exact Nat.mul_lt_mul_of_pos_right x.isLt (Nat.two_pow_pos _)
  have hcooling : s.Cooling c ys := by
    refine ⟨hc, ho, hidle, hhost, hrange, fun i y hy => ?_⟩
    rw [hsnap, snapped_add_div]
    exact habove i y hy
  obtain ⟨t, hrun, ht, hcfg, href⟩ := hcooling.run
  have hbase := ht.baseline_eq
  rw [hsnap] at href
  rw [hcfg, href, snapped_add_div] at hbase
  exact ⟨t, hrun, ht.host, href, hbase⟩

/-! ### SCAN as the filter and EVAL -/

/-- The filter command of the strap answers what the configured filter does (R164). -/
theorem commandBody_filterCommand (c : U4) (s : State) :
    commandBody (filterCommand (s.cfg c) c) s =
      respond (sampleValue (configuredFilter c s).1) (configuredFilter c s).2 := by
  unfold filterCommand configuredFilter
  cases (s.cfg c).fsel <;> rfl

/-- The filter command of a well-formed strap has legal operands: NSAMP is not 0 (R164). -/
theorem filterCommand_wf {g : ChanCfg} {c : U4} {nch : Nat} (hc : c.toNat < nch) (hg : g.wf = true) :
    (filterCommand g c).wf nch = true := by
  obtain ⟨-, hn⟩ := (ChanCfg.wf_iff g).mp hg
  unfold filterCommand
  cases g.fsel with
  | average => exact (Instr.wf_iff _ _).mpr ⟨hc, decide_eq_true hn⟩
  | median3 => exact (Instr.wf_iff _ _).mpr ⟨hc, rfl⟩

theorem scanValue_eq (t : Bool) (f : U8) :
    scanValue t f = BitVec.ofNat 16 (f.toNat + if t then 256 else 0) := by
  rw [← scanValue_toNat, BitVec.ofNat_toNat, BitVec.setWidth_eq]

/-- Settles O31: between the filter and the evaluation the two commands give a response and accept a command, which the
evaluation does not see. -/
theorem scanIsFilterThenEval : Obligations.ScanIsFilterThenEval := by
  intro s c hc hwf
  let r := configuredFilter c (accept s)
  let t1 := respond (sampleValue r.1) r.2
  have hr : r.2.responses = s.responses := configuredFilter_responses c (accept s)
  have hnch : t1.nch = s.nch := configuredFilter_nch c (accept s)
  have hfilter : exec (filterCommand (s.cfg c) c) s = .next t1 :=
    (exec_of_wf (filterCommand_wf hc hwf)).trans (congrArg _ (commandBody_filterCommand c (accept s)))
  refine ⟨_, t1, _, r.1, (evaluate c r.1 r.2).1, exec_of_wf (Instr.scan_wf hc), hfilter,
    congrArg (· ++ _) hr, exec_of_wf (Instr.eval_wf (hnch ▸ hc)), ?_, ?_⟩
  · rw [commandBody_eval, ← evalValue_eq]
    rfl
  · rw [commandBody_scan, ← scanValue_eq, ← hr]
    rfl

/-! ### Frames -/

/-- A command on a channel that does not exist is rejected as BAD_CHANNEL (R82 check 3). -/
theorem exec_of_nch_le {i : Instr} {s : State} (h : s.nch ≤ i.chan.toNat) :
    exec i s = .next (reject .badChannel (accept s)) :=
  exec_of_reject (if_pos h)

/-- Settles O34: a rejection changes nothing but the responses, and the evaluation writes one reference. -/
theorem evalFrame : Obligations.EvalFrame := by
  intro s t c x hexec
  rcases Nat.lt_or_ge c.toNat s.nch with hc | hc
  · rw [exec_of_wf (Instr.eval_wf hc), commandBody_eval] at hexec
    obtain rfl := Host.Outcome.next.inj hexec
    refine ⟨fun d hd => ?_, fun d => ⟨by simp, by simp, by simp⟩, by simp, rfl, rfl, rfl, rfl, rfl, rfl, _,
      respond_responses _ _⟩
    rw [respond_ref, evaluate_ref_of_ne (s := accept s) hc hd, accept_ref]
  · rw [exec_of_nch_le hc] at hexec
    obtain rfl := Host.Outcome.next.inj hexec
    exact ⟨fun d _ => rfl, fun d => ⟨rfl, rfl, rfl⟩, rfl, rfl, rfl, rfl, rfl, rfl, rfl, _, reject_responses _ _⟩

/-- SCAN is a row of at least one measurement, an evaluation and a response (R164). -/
theorem commandBody_scan_measures (c : U4) (s : State) :
    ∃ v f n, commandBody (.scan c) s = respond v (evaluate c f (measureTimes c (n + 1) s)).2 := by
  obtain ⟨n, hn⟩ := configuredFilter_measures c s
  rw [commandBody_scan, hn]
  exact ⟨_, _, n, rfl⟩

/-- Settles O35: a rejection changes nothing but the responses; the measurements change channel `c`'s pad, CRIT and CNT, the
evaluation one reference. -/
theorem scanFrame : Obligations.ScanFrame := by
  intro s t c hexec
  rcases Nat.lt_or_ge c.toNat s.nch with hc | hc
  · obtain ⟨v, f, n, hbody⟩ := commandBody_scan_measures c (accept s)
    rw [exec_of_wf (Instr.scan_wf hc), hbody] at hexec
    obtain rfl := Host.Outcome.next.inj hexec
    have hc' : c.toNat < (measureTimes c (n + 1) (accept s)).nch := by simpa using hc
    rw [if_pos hc]
    refine ⟨fun d hd => ⟨?_, ?_, ?_⟩, fun d => by simp, ⟨?_, ?_, measureTimes_crit c n (accept s)⟩, by simp, rfl,
      measureTimes_host c (n + 1) (accept s), ⟨⟨statusOk, v⟩, ?_⟩,
      Env.eventsOf c (n + 1) s.env, measureTimes_trace c (n + 1) (accept s), eventsOf_chan c (n + 1) s.env⟩
    · rw [respond_ref, evaluate_ref_of_ne hc' hd, measureTimes_ref, accept_ref]
    · rw [respond_padOut, evaluate_padOut, measureTimes_padOut (s := accept s) hc, if_neg hd, accept_padOut]
    · rw [respond_padOe, evaluate_padOe, measureTimes_padOe (s := accept s) hc, if_neg hd, accept_padOe]
    · rw [respond_padOut, evaluate_padOut, measureTimes_padOut (s := accept s) hc, if_pos rfl]
    · rw [respond_padOe, evaluate_padOe, measureTimes_padOe (s := accept s) hc, if_pos rfl]
    · rw [respond_responses, evaluate_responses, measureTimes_responses, accept_responses]
  · rw [exec_of_nch_le hc] at hexec
    obtain rfl := Host.Outcome.next.inj hexec
    rw [if_neg (Nat.not_lt.mpr hc)]
    exact ⟨fun d _ => ⟨rfl, rfl, rfl⟩, fun d => rfl, ⟨rfl, rfl, rfl, rfl, rfl⟩, rfl, rfl, rfl,
      ⟨_, reject_responses _ _⟩, [], (List.append_nil _).symm, by simp⟩

end Sys2Proof.Machine
end

