-- ==== Sys2Proof/Proofs/Exceptions.lean ====
section
/-!
SUPPORT. Rejection, the block's only kind of exception (spec/60_exceptions.md R190 to R193): what a rejected word and a command with
illegal operands leave unchanged, and the code they answer.
-/

namespace Sys2Proof.Machine

/-- Settles O7: the word is rejected on the state the host's list has moved on in, and that block is idle. -/
theorem rejectedCommandChangesNothing : Obligations.RejectedCommandChangesNothing := by
  intro s w rest r hbusy hhost hdec
  rw [step_command hbusy hhost, runWord_error (s := { s with host := rest }) hdec,
    reject_accept (s := { s with host := rest }) r hbusy]
  cases r <;> rfl

/-- Illegal operands are rejected for their channel before their count (R82 checks 3 and 4, R193). -/
theorem Instr.operandReject_of_not_wf {nch : Nat} {i : Instr} (h : i.wf nch = false) :
    i.operandReject nch = some (if nch ≤ i.chan.toNat then .badChannel else .nZero) := by
  unfold Instr.operandReject
  split_ifs with hchan hcount
  · rfl
  · rfl
  · have hwf : i.wf nch = true := (Instr.wf_iff nch i).mpr ⟨by omega, by simpa using hcount⟩
    simp [h] at hwf

/-- Settles O8: the reason is that of the first operand check that fails, and the rejection answers its code. -/
theorem illegalOperandsAreRejected : Obligations.IllegalOperandsAreRejected := by
  intro i s hwf
  rw [exec_of_reject (Instr.operandReject_of_not_wf hwf)]
  split_ifs <;> rfl

end Sys2Proof.Machine
end

