-- ==== Sys2Proof/Proofs/Hazards.lean ====
section
/-!
SUPPORT. Reset and hazards (spec/70_reset_and_hazards.md): the first evaluation after reset (R221), the moves the host has and has
not (R203, R229, R230), the measurements and reads of each command (R240), and the end of a run (R241).
-/

namespace Sys2Proof.Machine

/-! ### The moves of the host -/

/-- Settles O12: with no action of the host to take, the step is the idle step. -/
theorem idleBlockHoldsItsState : Obligations.IdleBlockHoldsItsState := by
  intro s hhost
  rw [step, hostStep, hhost]

/-- A command word at an idle block is never refused: it is rejected, or it is a command, and every command answers. -/
theorem runWord_ne_refused (w : U16) (s : State) (r : Refusal) : runWord w s ≠ .refused r := by
  cases hdec : decode s.nch w with
  | error e =>
    rw [runWord_error hdec]
    exact nofun
  | ok i =>
    rw [runWord_ok hdec, exec_eq]
    exact nofun

/-- A command is refused exactly when one is in progress (R230). -/
theorem act_command_refused_iff {w : U16} {s : State} {r : Refusal} :
    act (.command w) s = .refused r ↔ s.busy = true ∧ r = .commandWhileBusy := by
  cases hbusy : s.busy <;> simp [act, hbusy, runWord_ne_refused, eq_comm (a := r)]

/-- A command that reset would cut short is refused exactly when the command itself is (R30, R230). -/
theorem act_resetDuring_refused_iff {w : U16} {s : State} {r : Refusal} :
    act (.resetDuring w) s = .refused r ↔ s.busy = true ∧ r = .commandWhileBusy := by
  cases hbusy : s.busy <;> simp [act, hbusy, eq_comm (a := r)]

/-- A pad write is refused exactly when the block is busy (R230) or there is no such pad (R51). -/
theorem act_setOut_refused_iff {c : U4} {b : Bool} {s : State} {r : Refusal} :
    act (.setOut c b) s = .refused r ↔
      (s.busy = true ∧ r = .padWriteWhileBusy) ∨ (s.busy = false ∧ s.nch ≤ c.toNat ∧ r = .noSuchPad) := by
  cases hbusy : s.busy with
  | true => simp [act, hbusy, eq_comm (a := r)]
  | false =>
    by_cases hpad : s.nch ≤ c.toNat <;> simp [act, hbusy, chanIndex, hpad, eq_comm (a := r)]

/-- Settles O11: the step is the host's next action, and each kind of action is refused as its own lemma says. -/
theorem stepStopsOnlyWithoutAMove : Obligations.StepStopsOnlyWithoutAMove := by
  intro s r
  cases hhost : s.host with
  | nil => simp [idleBlockHoldsItsState s hhost]
  | cons a rest =>
    rw [step_cons hhost]
    cases a with
    | command w => simp [act_command_refused_iff]
    | setOut c b => simp [-Bool.exists_bool, act_setOut_refused_iff, State.nch]
    | reset => simp [act]
    | resetDuring w => simp [act_resetDuring_refused_iff]

/-- Between commands, the step on a write of an existing pad writes it (R229). -/
theorem step_setOut {s : State} {c : U4} {b : Bool} {rest : List HostAction} (hidle : s.busy = false)
    (hhost : s.host = .setOut c b :: rest) (hc : c.toNat < s.nch) :
    step s = .next (hostSetOut c b { s with host := rest }) := by
  rw [step_cons hhost]
  exact (if_neg (by simp [hidle])).trans (if_neg (Nat.not_le.mpr hc))

/-- A read after a write of a pad by the host: the written value on channel `c`, the old value elsewhere. -/
theorem hostSetOut_padOut {s : State} {c : U4} (h : c.toNat < s.nch) (b : Bool) (d : U4) :
    (hostSetOut c b s).padOut d = if d = c then b else s.padOut d :=
  State.setPadOut_padOut h b d

@[simp] theorem hostSetOut_padOe (c : U4) (b : Bool) (s : State) (d : U4) :
    (hostSetOut c b s).padOe d = s.padOe d := State.setPadOut_padOe c b s d

@[simp] theorem hostSetOut_ref (c : U4) (b : Bool) (s : State) (d : U4) :
    (hostSetOut c b s).ref d = s.ref d := State.setPadOut_ref c b s d

@[simp] theorem hostSetOut_cfg (c : U4) (b : Bool) (s : State) (d : U4) :
    (hostSetOut c b s).cfg d = s.cfg d := State.setPadOut_cfg c b s d

/-- Settles O43: the pad write writes one latch, and the host's list has moved on. -/
theorem hostSetOutWritesTheLatch : Obligations.HostSetOutWritesTheLatch := by
  intro s c b rest hidle hhost hc
  let u : State := { s with host := rest }
  exact ⟨_, step_setOut hidle hhost hc, rfl, hostSetOut_trace c b u,
    fun d => ⟨hostSetOut_padOut (s := u) hc b d, hostSetOut_padOe c b u d, hostSetOut_ref c b u d, hostSetOut_cfg c b u d⟩,
    hostSetOut_nch c b u, rfl, rfl, hidle, rfl, rfl⟩

/-! ### The first evaluation -/

/-- The baseline of a reference just snapped is the sample it snapped to (R161). -/
theorem baseline_of_snapped {ref : U16} {o : U4} {x : U8} (ho : o.toNat ≤ 8)
    (h : ref.toNat = x.toNat * 2 ^ o.toNat) : baseline ref o = x := by
  apply BitVec.eq_of_toNat_eq
  rw [baseline_toNat ho, h, Nat.mul_div_cancel _ (Nat.two_pow_pos _)]
  exact Nat.mod_eq_of_lt x.isLt

/-- At the baseline of the reset value, 255, the difference wraps to one more than the sample, or to 0 for 255 (R221). -/
theorem touched_resetRef_iff {o : U4} (ho : o.toNat ≤ 8) (x T : U8) :
    touched x (baseline 0xFFFF o) T = true ↔ T.toNat ≤ x.toNat ∧ x.toNat ≠ 255 := by
  have := x.isLt
  rw [touched_iff, baseline_resetRef ho]
  omega

/-- Settles O28: no sample is above the baseline of the reset value, so the evaluation snaps. -/
theorem firstEvaluationCalibrates : Obligations.FirstEvaluationCalibrates := by
  intro s c x hc hwf hreset
  obtain ⟨ho, -⟩ := (ChanCfg.wf_iff _).mp hwf
  have hle : x.toNat ≤ (baseline 0xFFFF (s.cfg c).offset).toNat := by
    rw [baseline_resetRef ho]
    exact Nat.le_of_lt_succ x.isLt
  have hsnap : ((commandBody (.eval c x) (accept s)).ref c).toNat = x.toNat * 2 ^ (s.cfg c).offset.toNat := by
    rw [commandBody_eval_ref (s := accept s) hc, accept_ref, accept_cfg, hreset, nextRef_snap_toNat ho hle]
  refine ⟨_, exec_of_wf (Instr.eval_wf hc), hsnap, ?_, ?_⟩
  · rw [commandBody_eval, respond_cfg, evaluate_cfg, accept_cfg]
    exact baseline_of_snapped ho hsnap
  · rw [commandBody_eval, respond_responses, evaluate_responses, evaluate_eq, accept_ref, accept_cfg, hreset, evalValue_eq]
    simp only [touched_resetRef_iff ho, statusOk_eq, accept_responses]

/-! ### Measurements and reads of a command -/

/-- A command with legal operands appends the events of its measurements, on its channel, and no others (R240). -/
theorem commandBody_trace {i : Instr} {s : State} (h : (s.cfg i.chan).wf = true) :
    (commandBody i s).trace = s.trace ++ Env.eventsOf i.chan (measuresOf i s) s.env := by
  cases i with
  | meas c => rw [commandBody_meas, respond_trace, measureTimes_trace]; rfl
  | avg c n =>
    show (respond _ (average c n s).2).trace = _
    rw [respond_trace, average_state, measureTimes_trace]
    rfl
  | med3 c => rw [commandBody_med3, respond_trace, measureTimes_trace]; rfl
  | eval c x => exact (List.append_nil _).symm
  | scan c =>
    show (configuredFilter c s).2.trace = _
    rw [configuredFilter_state c s h, measureTimes_trace]
    rfl
  | rdref c => exact (List.append_nil _).symm

/-- Being accepted does not change how many measurements a command makes. -/
theorem measuresOf_accept (i : Instr) (s : State) : measuresOf i (accept s) = measuresOf i s := by
  cases i <;> rfl

/-- Settles O21: a row of `m` measurements makes `m` to `255 * m` reads, and a rejection makes no measurement. -/
theorem readsPerCommandAreBounded : Obligations.ReadsPerCommandAreBounded := by
  intro s i hstrap
  cases hwf : i.wf s.nch with
  | true =>
    have htrace := commandBody_trace (s := accept s) (hstrap hwf)
    rw [measuresOf_accept, accept_trace, accept_env] at htrace
    have hreads := readsIn_eventsOf i.chan (measuresOf i s) s.env
    refine ⟨_, exec_of_wf hwf, ?_⟩
    simp only [htrace, measurementsIn_append, measurementsIn_eventsOf, readsIn_append, if_true, true_and]
    omega
  | false =>
    refine ⟨_, exec_of_reject (Instr.operandReject_of_not_wf hwf), ?_⟩
    simp

/-! ### Runs -/

/-- The invariant holds along every run (R241). -/
theorem run_inv {n : Nat} {s t : State} (hs : s.inv = true) (h : Host.Core.run Sys2Proof.core n s = .next t) :
    t.inv = true := by
  induction n generalizing s with
  | zero =>
    cases (show Host.Outcome.next s = Host.Outcome.next t from h)
    exact hs
  | succ n ih =>
    obtain ⟨u, hstep, hrun⟩ := step_of_run h
    exact ih (stepKeepsTheInvariant s u hs hstep) hrun

/-- Settles O41: reset meets the invariant, whatever the host's list and the environment, and every run keeps it. -/
theorem everyRunEndsQuiet : Obligations.EveryRunEndsQuiet := by
  intro n acts e t hrun
  have hreset : ({ State.reset with host := acts, env := e } : State).inv = true := resetMeetsTheInvariant.1
  obtain ⟨hsound, hidle⟩ := (State.inv_iff_sound t).mp (run_inv hreset hrun)
  refine ⟨hsound.crit, hidle, fun ch hch => ?_, decide_eq_true hsound.trace⟩
  obtain ⟨-, hoe, -⟩ := (Channel.ok_iff ch).mp (hsound.channels ch hch)
  exact hoe

end Sys2Proof.Machine
end

