-- ==== Sys2Proof/Proofs/HostLoop.lean ====
section
/-!
SUPPORT. The host loop (spec/70_reset_and_hazards.md R228, R229): a row of pad writes, of which HOST CLEAR is one, and a row of
SCANs, each by induction over the channels the host names; one cycle is the two in a row.
-/

namespace Sys2Proof.Machine

/-! ### The channels the host names -/

/-- The channels 0 to `nch - 1` in ascending order. -/
def channelsBelow (nch : Nat) : List U4 := (List.range nch).map (BitVec.ofNat 4)

@[simp] theorem length_channelsBelow (nch : Nat) : (channelsBelow nch).length = nch := by
  simp [channelsBelow]

/-- With at most 16 channels, the index of each fits 4 bits (R5). -/
theorem mem_channelsBelow {nch : Nat} (h : nch ≤ 16) {d : U4} : d ∈ channelsBelow nch ↔ d.toNat < nch := by
  simp only [channelsBelow, List.mem_map, List.mem_range]
  constructor
  · rintro ⟨k, hk, rfl⟩
    rwa [BitVec.toNat_ofNat, Nat.mod_eq_of_lt (by omega)]
  · exact fun hd => ⟨d.toNat, hd, by rw [BitVec.ofNat_toNat, BitVec.setWidth_eq]⟩

theorem hostClear_eq (nch : Nat) : hostClear nch = (channelsBelow nch).map fun c => .setOut c false := by
  simp [hostClear, channelsBelow, Function.comp_def]

theorem hostCycle_eq (nch : Nat) :
    hostCycle nch = hostClear nch ++ (channelsBelow nch).map fun c => .command (encode (.scan c)) := by
  simp [hostCycle, channelsBelow, Function.comp_def]

/-- With at most 16 channels, every latch is low exactly when the latch of every existing channel is. -/
theorem State.allLow_iff {s : State} (h : s.nch ≤ 16) :
    s.allLow = true ↔ ∀ d : U4, d.toNat < s.nch → s.padOut d = false := by
  simp only [State.allLow, List.all_eq_true, Bool.not_eq_true']
  constructor
  · intro hlow d hd
    obtain ⟨ch, hch⟩ := State.chan_of_lt hd
    rw [State.padOut_of_chan hch]
    exact hlow ch (List.mem_of_getElem? hch)
  · intro hlow ch hch
    obtain ⟨k, hk, rfl⟩ := List.mem_iff_getElem.mp hch
    have hidx : (BitVec.ofNat 4 k).toNat = k := by
      rw [BitVec.toNat_ofNat]
      exact Nat.mod_eq_of_lt (hk.trans_le h)
    have hget : s.chans[chanIndex (BitVec.ofNat 4 k)]? = some s.chans[k] := by
      rw [chanIndex, hidx, List.getElem?_eq_getElem hk]
    rw [← State.padOut_of_chan hget]
    exact hlow _ (hidx.symm ▸ hk)

/-! ### Pad writes in a row -/

/-- What writing the latches of the channels `cs` to `b`, in that order, changes from `s` to `t`, and what it leaves (R229). -/
structure PadsWritten (cs : List U4) (b : Bool) (s t : State) : Prop where
  trace : t.trace = s.trace ++ cs.map fun c => .hostSetOut c b
  padOut : ∀ d, t.padOut d = if d ∈ cs then b else s.padOut d
  others : ∀ d, t.ref d = s.ref d ∧ t.padOe d = s.padOe d ∧ t.cfg d = s.cfg d
  nch : t.nch = s.nch
  busy : t.busy = s.busy
  responses : t.responses = s.responses
  cnt : t.cnt = s.cnt

namespace PadsWritten

variable {cs : List U4} {b : Bool} {s t : State}

/-- No write changes nothing. -/
theorem nil (b : Bool) (s : State) : PadsWritten [] b s s :=
  ⟨(List.append_nil _).symm, fun _ => rfl, fun _ => ⟨rfl, rfl, rfl⟩, rfl, rfl, rfl, rfl⟩

/-- One write before the others. -/
theorem cons {c : U4} (hc : c.toNat < s.nch) (h : PadsWritten cs b (hostSetOut c b s) t) :
    PadsWritten (c :: cs) b s t := by
  refine ⟨?_, fun d => ?_, fun d => ?_, ?_, h.busy, h.responses, h.cnt⟩
  · rw [h.trace, hostSetOut_trace, List.append_assoc, List.map_cons, List.singleton_append]
  · rw [h.padOut, hostSetOut_padOut hc]
    by_cases hd : d = c <;> simp [hd]
  · simpa using h.others d
  · rw [h.nch, hostSetOut_nch]

/-- The host's remaining actions are not among what the writes change or leave. -/
theorem of_withHost {rest : List HostAction} (h : PadsWritten cs b { s with host := rest } t) : PadsWritten cs b s t :=
  ⟨h.trace, h.padOut, h.others, h.nch, h.busy, h.responses, h.cnt⟩

end PadsWritten

/-- The run of a row of writes of existing pads writes them all. -/
theorem run_setOuts {cs : List U4} {b : Bool} {rest : List HostAction} {s : State} (hidle : s.busy = false)
    (hhost : s.host = (cs.map fun c => .setOut c b) ++ rest) (hcs : ∀ c ∈ cs, c.toNat < s.nch) :
    ∃ t, Host.Core.run Sys2Proof.core cs.length s = .next t ∧ t.host = rest ∧ PadsWritten cs b s t := by
  induction cs generalizing s with
  | nil => exact ⟨s, rfl, hhost, .nil b s⟩
  | cons c cs ih =>
    obtain ⟨hc, hcs⟩ := List.forall_mem_cons.mp hcs
    let u : State := { s with host := (cs.map fun c => .setOut c b) ++ rest }
    have hnch : (hostSetOut c b u).nch = s.nch := hostSetOut_nch c b u
    obtain ⟨t, hrun, hrest, hwritten⟩ := ih (s := hostSetOut c b u) hidle rfl fun d hd => hnch ▸ hcs d hd
    exact ⟨t, (run_of_step (step_setOut hidle hhost hc)).trans hrun, hrest, (hwritten.cons (s := u) hc).of_withHost⟩

/-- HOST CLEAR writes every latch low, channel by channel in ascending order (R229). -/
theorem run_hostClear {rest : List HostAction} {s : State} (hidle : s.busy = false) (h16 : s.nch ≤ 16)
    (hhost : s.host = hostClear s.nch ++ rest) :
    ∃ t, Host.Core.run Sys2Proof.core s.nch s = .next t ∧ t.host = rest ∧ t.allLow = true ∧
      PadsWritten (channelsBelow s.nch) false s t := by
  obtain ⟨t, hrun, hrest, hwritten⟩ := run_setOuts hidle (hostClear_eq s.nch ▸ hhost)
    fun c hc => (mem_channelsBelow h16).mp hc
  rw [length_channelsBelow] at hrun
  refine ⟨t, hrun, hrest, (State.allLow_iff (hwritten.nch.symm ▸ h16)).mpr fun d hd => ?_, hwritten⟩
  rw [hwritten.padOut, if_pos ((mem_channelsBelow h16).mpr (hwritten.nch ▸ hd))]

/-- Settles O44: HOST CLEAR is a row of pad writes, one of each channel. -/
theorem hostClearDrivesEveryLatchLow : Obligations.HostClearDrivesEveryLatchLow := by
  intro s rest hidle h16 hhost
  obtain ⟨t, hrun, hrest, hlow, hwritten⟩ := run_hostClear hidle h16 hhost
  refine ⟨t, hrun, hrest, hlow, ?_, hwritten.others, hwritten.responses, hwritten.cnt⟩
  rw [hwritten.trace, channelsBelow, List.map_map]
  rfl

/-! ### SCANs in a row -/

/-- A SCAN of an existing channel at an idle block completes with one OK response, and leaves every latch low that was (R164). -/
theorem step_scan {c : U4} {rest : List HostAction} {s : State} (hidle : s.busy = false)
    (hhost : s.host = .command (encode (.scan c)) :: rest) (hc : c.toNat < s.nch) :
    ∃ t v, step s = .next t ∧ t.host = rest ∧ t.busy = false ∧ t.nch = s.nch ∧
      t.responses = s.responses ++ [{ st := statusOk, val := v }] ∧
      ∀ d, s.padOut d = false → t.padOut d = false := by
  let u : State := { s with host := rest }
  have hwf : (Instr.scan c).wf u.nch = true := Instr.scan_wf hc
  obtain ⟨hothers, -, hown, hnch, hbusy, hrest, -, -⟩ := scanFrame u _ c (exec_of_wf hwf)
  rw [if_pos (show c.toNat < u.nch from hc)] at hown
  refine ⟨_, _, step_encode hidle hhost hwf, hrest, hbusy, hnch, commandBody_responses _ (accept u), fun d hd => ?_⟩
  by_cases hdc : d = c
  · exact hdc ▸ hown.1
  · obtain ⟨-, hpad, -⟩ := hothers d hdc
    exact hpad.trans hd

/-- The run of a row of SCANs of existing channels completes, with one OK response each. -/
theorem run_scans {cs : List U4} {s : State} (hidle : s.busy = false)
    (hhost : s.host = cs.map fun c => .command (encode (.scan c))) (hcs : ∀ c ∈ cs, c.toNat < s.nch) :
    ∃ t rs, Host.Core.run Sys2Proof.core cs.length s = .next t ∧ t.host = [] ∧ t.nch = s.nch ∧
      t.responses = s.responses ++ rs ∧ rs.length = cs.length ∧ (∀ r ∈ rs, r.st = statusOk) ∧
      ∀ d, s.padOut d = false → t.padOut d = false := by
  induction cs generalizing s with
  | nil => exact ⟨s, [], rfl, hhost, rfl, (List.append_nil _).symm, rfl, nofun, fun _ hd => hd⟩
  | cons c cs ih =>
    obtain ⟨hc, hcs⟩ := List.forall_mem_cons.mp hcs
    obtain ⟨u, v, hstep, hrest, hbusy, hnch, hresp, hlow⟩ := step_scan hidle hhost hc
    obtain ⟨t, rs, hrun, hnil, hnch', hresp', hlen, hok, hlow'⟩ := ih hbusy hrest fun d hd => hnch ▸ hcs d hd
    refine ⟨t, { st := statusOk, val := v } :: rs, (run_of_step hstep).trans hrun, hnil, hnch'.trans hnch, ?_,
      congrArg (· + 1) hlen, List.forall_mem_cons.mpr ⟨rfl, hok⟩, fun d hd => hlow' d (hlow d hd)⟩
    rw [hresp', hresp, List.append_assoc, List.singleton_append]

/-! ### One cycle -/

/-- Settles O45: HOST CLEAR leaves the latches low, which no SCAN raises; the invariant holds along every run. -/
theorem hostCycleCompletes : Obligations.HostCycleCompletes := by
  intro s hinv
  obtain ⟨hsound, hidle⟩ := (State.inv_iff_sound s).mp hinv
  let s₀ : State := { s with host := hostCycle s.nch }
  obtain ⟨u, hclear, hrest, hlow, hwritten⟩ := run_hostClear (s := s₀) hidle hsound.nch_le (hostCycle_eq s.nch)
  have hnch : u.nch = s.nch := hwritten.nch
  obtain ⟨t, rs, hscans, hnil, hnch', hresp, hlen, hok, hkeep⟩ := run_scans (hwritten.busy.trans hidle) hrest
    fun c hc => hnch.symm ▸ (mem_channelsBelow hsound.nch_le).mp hc
  rw [length_channelsBelow] at hscans hlen
  have hrun : Host.Core.run Sys2Proof.core (2 * s.nch) s₀ = .next t := by
    rw [Nat.two_mul]
    exact (run_add hclear).trans hscans
  have hu16 : u.nch ≤ 16 := hnch.symm ▸ hsound.nch_le
  refine ⟨t, rs, hrun, run_inv (s := s₀) hinv hrun, ?_, hnil, hresp.trans (congrArg (· ++ rs) hwritten.responses),
    hlen, hok⟩
  exact (State.allLow_iff (hnch'.symm ▸ hu16)).mpr fun d hd =>
    hkeep d ((State.allLow_iff hu16).mp hlow d (hnch' ▸ hd))

end Sys2Proof.Machine
end
